-- ==== Sys2Proof/Word.lean ====
section
/-! DEFINITION. The words of the fastnes PPU core: bytes, 16-bit words, 9-bit counters, port numbers. -/

namespace Sys2Proof

/-- One byte: a register of the register file, a memory cell, an operand (`00_scope.md` R6). -/
abbrev Byte := BitVec 8

/-- A 16-bit word: an operation word (R90), a PPU address (R60), `scroll` and `vaddr` (R27, R29). -/
abbrev Word := BitVec 16

/-- INIT's status code: "any nonzero 32-bit-or-narrower value" on failure (D17). -/
abbrev StatusCode := BitVec 32

/-- One half of the timing position: `scanline` or `dot`, each a counter of "9 + 9 bits" (`10_state.md` R32,
`60_exceptions.md` R213). -/
abbrev Counter := BitVec 9

/-- The eight ports of the port window, numbered 0..7 (`20_memory.md` R61). -/
abbrev Port := Fin 8

end Sys2Proof
end

