-- ==== Sys2Proof/Syntax.lean ====
section
/-! DEFINITION. The operations of the block, its "instructions" (`00_scope.md` R2): one constructor for each of the
nineteen rows of spec/opcode_table.json. -/

namespace Sys2Proof

/-- INIT's operand, the mirroring configuration (`30_encoding.md` R96). The named modes have the codes 0x00, 0x01 and 0x02;
`unknown c` stands for one of the codes 0x03..0xFF (WellFormed says so). -/
inductive MirrorType where
  | horizontal
  | vertical
  | cartridgeVram
  | unknown (code : Byte)
deriving DecidableEq, Repr

/-- The nineteen operations (`30_encoding.md` R99). -/
inductive Instr where
  /-- READ port 0 (`41_port_read.md` R131) -/
  | read0
  /-- READ port 1 (R132) -/
  | read1
  /-- READ port 2, status (R133) -/
  | read2
  /-- READ port 3 (R134) -/
  | read3
  /-- READ port 4 (R135) -/
  | read4
  /-- READ port 5 (R136) -/
  | read5
  /-- READ port 6 (R137) -/
  | read6
  /-- READ port 7, data (R138) -/
  | read7
  /-- WRITE port 0, ControlRegister1 (`42_port_write.md` R151) -/
  | write0 (value : Byte)
  /-- WRITE port 1, ControlRegister2 (R152) -/
  | write1 (value : Byte)
  /-- WRITE port 2 (R153) -/
  | write2 (value : Byte)
  /-- WRITE port 3 (R154) -/
  | write3 (value : Byte)
  /-- WRITE port 4 (R155) -/
  | write4 (value : Byte)
  /-- WRITE port 5, scroll (R157) -/
  | write5 (value : Byte)
  /-- WRITE port 6, VRAM address (R158) -/
  | write6 (value : Byte)
  /-- WRITE port 7, VRAM data (R159) -/
  | write7 (value : Byte)
  /-- STEP (`43_timing.md` R170) -/
  | step
  /-- INIT (`44_init_debug.md` R190) -/
  | init (mirrorType : MirrorType)
  /-- DEBUG_READ (R194) -/
  | debugRead (port : Port)
deriving DecidableEq, Repr

end Sys2Proof
end

