-- ==== Sys2Proof/WellFormed.lean ====
section
/-! DEFINITION. Which terms of the syntax stand for an operation. The operand types bound every field already, but for one:
an unknown mirror type carries a code that names no mode (`30_encoding.md` R96). -/

namespace Sys2Proof

/-- "The values 0x03..0xFF are unknown modes" (R96): an `unknown` code is none of the three named ones. -/
def MirrorType.wellFormed : MirrorType → Bool
  | .horizontal => true
  | .vertical => true
  | .cartridgeVram => true
  | .unknown code => decide (3 ≤ code.toNat)

/-- The check of an operation's operands. -/
def Instr.wellFormed : Instr → Bool
  | .read0 => true
  | .read1 => true
  | .read2 => true
  | .read3 => true
  | .read4 => true
  | .read5 => true
  | .read6 => true
  | .read7 => true
  | .write0 _ => true
  | .write1 _ => true
  | .write2 _ => true
  | .write3 _ => true
  | .write4 _ => true
  | .write5 _ => true
  | .write6 _ => true
  | .write7 _ => true
  | .step => true
  | .init m => m.wellFormed
  | .debugRead _ => true

end Sys2Proof
end

