-- ==== Sys2Proof/Decode.lean ====
section
/-! DEFINITION. The operation word (`30_encoding.md` R90 to R100): the decoder, total on every 16-bit word and rejecting by
name; the encoder; the match and mask table of R99; the reading of a row of spec/opcode_table.json. -/

namespace Sys2Proof

/-! ### The fields of a word (R91) -/

/-- `cls`, bits 15:12: the operation class (R92). -/
def wordClass (w : Word) : Nat := (w.extractLsb' 12 4).toNat

/-- `z`, bit 11: reserved, must be 0. -/
def wordReserved (w : Word) : Bool := w.getLsbD 11

/-- `p`, bits 10:8, zero-extended (R97). -/
def wordPort (w : Word) : Port := (w.extractLsb' 8 3).toFin

/-- `d`, bits 7:0: the data byte or the mirror-type code (R97). -/
def wordData (w : Word) : Byte := w.extractLsb' 0 8

/-! ### Operand codes -/

/-- The mirror type a code names (R96, D3). -/
def MirrorType.ofCode (code : Byte) : MirrorType :=
  if code = 0x00#8 then .horizontal
  else if code = 0x01#8 then .vertical
  else if code = 0x02#8 then .cartridgeVram
  else .unknown code

/-- The code of a mirror type (R96, D3). -/
def MirrorType.code : MirrorType → Byte
  | .horizontal => 0x00#8
  | .vertical => 0x01#8
  | .cartridgeVram => 0x02#8
  | .unknown code => code

/-! ### Decoding -/

/-- Why a word is Invalid (R100), one constructor for each reason of the rule. -/
inductive Invalid where
  /-- `z` is 1 -/
  | reservedBit
  /-- `cls` is 0x5..0xF -/
  | reservedClass
  /-- `d` is not 0 in a READ, STEP or DEBUG_READ word -/
  | nonzeroData
  /-- `p` is not 0 in a STEP or INIT word -/
  | nonzeroPort
deriving DecidableEq, Repr

/-- READ(p) (R93). -/
def readOf : Port → Instr
  | 0 => .read0
  | 1 => .read1
  | 2 => .read2
  | 3 => .read3
  | 4 => .read4
  | 5 => .read5
  | 6 => .read6
  | 7 => .read7

/-- WRITE(p, d) (R94). -/
def writeOf (p : Port) (d : Byte) : Instr :=
  match p with
  | 0 => .write0 d
  | 1 => .write1 d
  | 2 => .write2 d
  | 3 => .write3 d
  | 4 => .write4 d
  | 5 => .write5 d
  | 6 => .write6 d
  | 7 => .write7 d

/-- The decoding algorithm of R99. -/
def decode (w : Word) : Except Invalid Instr :=
  if wordReserved w then .error .reservedBit
  else
    match wordClass w with
    | 0 => if wordData w = 0 then .ok (readOf (wordPort w)) else .error .nonzeroData
    | 1 => .ok (writeOf (wordPort w) (wordData w))
    | 2 =>
      if wordPort w ≠ 0 then .error .nonzeroPort
      else if wordData w = 0 then .ok .step
      else .error .nonzeroData
    | 3 => if wordPort w = 0 then .ok (.init (.ofCode (wordData w))) else .error .nonzeroPort
    | 4 => if wordData w = 0 then .ok (.debugRead (wordPort w)) else .error .nonzeroData
    | _ => .error .reservedClass

/-! ### Encoding -/

/-- A word from its class, port and data fields, with `z` = 0 (R91). -/
def packWord (cls : BitVec 4) (p : BitVec 3) (d : Byte) : Word :=
  cls ++ 0#1 ++ p ++ d

/-- The operation word of an operation (R93 to R96). -/
def encode : Instr → Word
  | .read0 => packWord 0 0 0
  | .read1 => packWord 0 1 0
  | .read2 => packWord 0 2 0
  | .read3 => packWord 0 3 0
  | .read4 => packWord 0 4 0
  | .read5 => packWord 0 5 0
  | .read6 => packWord 0 6 0
  | .read7 => packWord 0 7 0
  | .write0 v => packWord 1 0 v
  | .write1 v => packWord 1 1 v
  | .write2 v => packWord 1 2 v
  | .write3 v => packWord 1 3 v
  | .write4 v => packWord 1 4 v
  | .write5 v => packWord 1 5 v
  | .write6 v => packWord 1 6 v
  | .write7 v => packWord 1 7 v
  | .step => packWord 2 0 0
  | .init m => packWord 3 0 m.code
  | .debugRead p => packWord 4 (BitVec.ofFin p) 0

/-! ### The opcode table (R99) -/

/-- One row of R99's table: a word `w` belongs to it when `w &&& mask = pattern`. -/
structure OpcodeRow where
  pattern : Word
  mask : Word
deriving DecidableEq, Repr

/-- Whether a word belongs to a row. -/
def OpcodeRow.covers (r : OpcodeRow) (w : Word) : Bool := w &&& r.mask == r.pattern

/-- The row of an operation in R99's table. -/
def rowOf : Instr → OpcodeRow
  | .read0 => ⟨0x0000, 0xFFFF⟩
  | .read1 => ⟨0x0100, 0xFFFF⟩
  | .read2 => ⟨0x0200, 0xFFFF⟩
  | .read3 => ⟨0x0300, 0xFFFF⟩
  | .read4 => ⟨0x0400, 0xFFFF⟩
  | .read5 => ⟨0x0500, 0xFFFF⟩
  | .read6 => ⟨0x0600, 0xFFFF⟩
  | .read7 => ⟨0x0700, 0xFFFF⟩
  | .write0 _ => ⟨0x1000, 0xFF00⟩
  | .write1 _ => ⟨0x1100, 0xFF00⟩
  | .write2 _ => ⟨0x1200, 0xFF00⟩
  | .write3 _ => ⟨0x1300, 0xFF00⟩
  | .write4 _ => ⟨0x1400, 0xFF00⟩
  | .write5 _ => ⟨0x1500, 0xFF00⟩
  | .write6 _ => ⟨0x1600, 0xFF00⟩
  | .write7 _ => ⟨0x1700, 0xFF00⟩
  | .step => ⟨0x2000, 0xFFFF⟩
  | .init _ => ⟨0x3000, 0xFF00⟩
  | .debugRead _ => ⟨0x4000, 0xF8FF⟩

/-- The nineteen rows of R99's table, in its order. -/
def opcodeRows : List OpcodeRow :=
  List.map rowOf
    [.read0, .read1, .read2, .read3, .read4, .read5, .read6, .read7, .write0 0, .write1 0, .write2 0, .write3 0,
      .write4 0, .write5 0, .write6 0, .write7 0, .step, .init .horizontal, .debugRead 0]

/-! ### A row of spec/opcode_table.json -/

/-- The operation word whose low `nbits` bits are those of `w` and whose other bits are 0 (every operation is exactly one
16-bit word, R90, R102). Log 28. -/
def tableWord (nbits w : Nat) : Word := BitVec.ofNat 16 (w % 2 ^ nbits)

/-- The operation the decoder reads from a table row's bits. Log 28. -/
def decodeTableWord (nbits w : Nat) : Option Instr :=
  if w % 2 ^ nbits < 2 ^ 16 then (decode (tableWord nbits w)).toOption else none

end Sys2Proof
end

