-- ==== Sys2Proof/Config.lean ====
section
/-! DEFINITION. What the spec leaves OPEN (`00_scope.md` R5) and the free values (`10_state.md` R45).
None of these constants has a body: no proof can see what it is. -/

namespace Sys2Proof.Config

/-- The open value behind `initFailCode`. -/
opaque initFailRaw : StatusCode

/-- INIT_FAIL_CODE (R5, `44_init_debug.md` R192): an open value, any but zero.
Log 4. -/
def initFailCode : StatusCode := if initFailRaw = 0 then 1 else initFailRaw

/-- The place of the bit that NMI_FLAG_MASK names in the collaborator's interrupt-flags register (R5, `10_state.md` R38):
open. Log 6. -/
opaque nmiFlagBit : Nat

/-- NMI_FLAG_MASK (R5, R38): the one bit the block ORs into the external interrupt-flags register. -/
def nmiFlagMask : Nat := 2 ^ nmiFlagBit

/-- The free number of the register numbered `field` at the draw numbered `draw`: what R45 leaves unspecified. Log 5. -/
opaque freeNat (draw field : Nat) : Nat

/-- The free contents of the memory numbered `field` at the draw numbered `draw`: what R45 leaves unspecified. Log 5. -/
opaque freeCells (draw field : Nat) : List (Nat × Byte)

end Sys2Proof.Config
end

