-- ==== Sys2Proof/Machine/State.lean ====
section
/-! DEFINITION. The state of the block as `10_state.md` gives it, as plain data, with the block's interface (the operations
waiting, the output trace); the reasons a step can stop; the state after reset (R44). -/

namespace Sys2Proof.Machine

/-- `life` (`10_state.md` R20): `uninit` from creation until the first INIT, then `ready` or `failed`. -/
inductive Life where
  | uninit
  | ready
  | failed
deriving DecidableEq, Repr

/-- A one-bit toggle (R28, R30): 0 is the low phase, 1 the high phase. -/
inductive Phase where
  | low
  | high
deriving DecidableEq, Repr

/-- A physical 1 KiB half of name-table memory (R34, R36). -/
inductive Region where
  | region0
  | region1
deriving DecidableEq, Repr

/-- `mirror[0..3]` (R34): the region each logical name-table slot names. -/
structure MirrorMap where
  slot0 : Region
  slot1 : Region
  slot2 : Region
  slot3 : Region
deriving DecidableEq, Repr

/-- One memory: (index, byte) pairs, indexes strictly rising, no entry equal to what an unlisted index reads as
(Machine/Ops.lean: `Memory.unlisted`, `Memory.wf`). -/
abbrev Memory := List Host.Cell

/-- The three memories behind the mapper (`20_memory.md` R60). -/
inductive Store where
  | pat
  | nt
  | pal
deriving DecidableEq, Repr

/-- One physical byte: a memory and an index into it. -/
structure Loc where
  store : Store
  index : Nat
deriving DecidableEq, Repr

/-- The kinds of diagnostic (`60_exceptions.md` R201). -/
inductive DiagKind where
  | readInvalidPort
  | readDataUnimplemented
  | writeUnimplemented
deriving DecidableEq, Repr

/-- The output events (`00_scope.md` R8). -/
inductive Event where
  /-- a non-fatal diagnostic: its kind and the port (R201) -/
  | diag (kind : DiagKind) (port : Port)
  /-- the interrupt request (`43_timing.md` R175) -/
  | nmiRequest
  /-- the render hook's call, with the position before the increment (R171) -/
  | renderHook (scanline dot : Counter)
  /-- frame completion (R176) -/
  | frameDone
deriving DecidableEq, Repr

/-- What an operation returns (R8): nothing (WRITE, STEP), a byte (READ, DEBUG_READ) or a status code (INIT). -/
inductive Result where
  | nothing
  | byte (value : Byte)
  | status (code : StatusCode)
deriving DecidableEq, Repr

/-- One entry of a run's observation (`00_scope.md` R13): the operation, its result, its events in the order emitted. -/
structure Record where
  op : Instr
  result : Result
  events : List Event
deriving DecidableEq, Repr

/-- The state of one instance (`10_state.md`; R46) and, below the line, its interface. -/
structure State where
  /-- lifecycle (R20) -/
  life : Life
  /-- ControlRegister1 (R22, R23) -/
  ctrl1 : Byte
  /-- ControlRegister2 (R22, R24) -/
  ctrl2 : Byte
  /-- StatusRegister (R25) -/
  status : Byte
  /-- ScrollPosition (R27) -/
  scroll : Word
  /-- the toggle of `scroll` (R28) -/
  wScroll : Phase
  /-- VramAddress (R29) -/
  vaddr : Word
  /-- the toggle of `vaddr` (R30) -/
  wAddr : Phase
  /-- the row of the timing position (R32), 9 bits. Log 22. -/
  scanline : Counter
  /-- the horizontal clock of the timing position (R32), 9 bits. Log 22. -/
  dot : Counter
  /-- the name-table mirror map (R34) -/
  mirror : MirrorMap
  /-- PAT, pattern memory (R35) -/
  pat : Memory
  /-- NT, name-table memory (R36) -/
  nt : Memory
  /-- PAL, palette memory (R37) -/
  pal : Memory
  -- the interface
  /-- the operation words the host has issued and the block has not performed, oldest first (R80, R90). Log 1. -/
  input : List Word
  /-- the host input of INIT: whether the framebuffer acquisition succeeds (R5, R190). Log 3. -/
  allocOk : Bool
  /-- the output trace, newest operation first (R8, R13). Log 7. -/
  trace : List Record
  /-- the model's own counter of free values drawn (for R45). Log 5. -/
  draws : Nat
deriving DecidableEq, Repr

/-- The reasons a step can stop with a fault: none. "The block raises no synchronous exception" (`60_exceptions.md` R200);
nobody raises one. -/
inductive Fault where
deriving DecidableEq, Repr

/-- The refusals (`60_exceptions.md` R203). A refusal has no next state (`44_init_debug.md` R195). -/
inductive Refusal where
  /-- An instruction without a meaning: raised by no arm of this model. Safe. -/
  | notModelled (mnemonic : String)
  /-- NotUsable: raised by READ, WRITE, STEP and DEBUG_READ when `life` is not `ready` (R195). Safe: nothing can be proved
  of what follows an operation outside the contract. -/
  | notUsable
  /-- ReInit: raised by INIT when `life` is not `uninit` (R193). Safe, for the same reason. -/
  | reInit
  /-- ReservedWord: raised by the step for a word the decoder calls Invalid (`30_encoding.md` R100). Safe, for the same
  reason. -/
  | reservedWord
deriving DecidableEq, Repr

/-- The state right after reset, that is, after a successful INIT (R44, R230), with the HORIZONTAL mirror map (log 2) and
nothing at the interface (log 1, log 3, log 5, log 7). -/
def State.reset : State where
  life := .ready
  ctrl1 := 0x00#8
  ctrl2 := 0x00#8
  status := 0x00#8
  scroll := 0x0000#16
  wScroll := .low
  vaddr := 0x0000#16
  wAddr := .low
  scanline := 0
  dot := 0
  mirror := ⟨.region0, .region0, .region1, .region1⟩
  pat := []
  nt := []
  pal := []
  input := []
  allocOk := true
  trace := []
  draws := 0

end Sys2Proof.Machine
end

