-- ==== Sys2Proof/Machine/Flags.lean ====
section
/-! DEFINITION. The flags of the block and the fields of its registers: the vertical-blank bit of `status` (`10_state.md`
R25), the two toggles (R28, R30), and the pure decode of the control registers (`40_register_decode.md` R111 to R123). -/

namespace Sys2Proof.Machine

/-! ### Vertical blank (R25) -/

/-- VBL_MASK (`00_scope.md` R5, D7): status bit 7. Log 11. -/
def vblMask : Byte := 0x80#8

/-- Whether vertical blank is in progress: `status & VBL_MASK != 0` (`41_port_read.md` R133). -/
def vblSet (status : Byte) : Bool := status &&& vblMask != 0#8

/-- `status | VBL_MASK` (`43_timing.md` R175). -/
def setVbl (status : Byte) : Byte := status ||| vblMask

/-- `status & ~VBL_MASK` (R133, R174). -/
def clearVbl (status : Byte) : Byte := status &&& ~~~vblMask

/-! ### Toggles -/

/-- The flip of a toggle (`42_port_write.md` R156). -/
def Phase.flip : Phase → Phase
  | .low => .high
  | .high => .low

/-! ### decodeControl1 (log 9) -/

/-- R111: the auto-increment step, 1 or 32. -/
def autoIncrement (ctrl1 : Byte) : Nat := if ctrl1.getLsbD 2 then 32 else 1

/-- R112. -/
def spritePatternBase (ctrl1 : Byte) : Word := if ctrl1.getLsbD 3 then 0x1000#16 else 0x0000#16

/-- R113. -/
def backgroundPatternBase (ctrl1 : Byte) : Word := if ctrl1.getLsbD 4 then 0x1000#16 else 0x0000#16

/-- R114. -/
def sprite8x16 (ctrl1 : Byte) : Bool := ctrl1.getLsbD 5

/-- R115. -/
def vblankNmiEnabled (ctrl1 : Byte) : Bool := ctrl1.getLsbD 7

/-- The record decodeControl1 gives (R116). -/
structure Control1 where
  autoIncrement : Nat
  spritePatternBase : Word
  backgroundPatternBase : Word
  sprite8x16 : Bool
  vblankNmiEnabled : Bool
deriving DecidableEq, Repr

/-- decodeControl1 (R116): stateless, recomputed from the raw byte (R124). -/
def decodeControl1 (ctrl1 : Byte) : Control1 where
  autoIncrement := autoIncrement ctrl1
  spritePatternBase := spritePatternBase ctrl1
  backgroundPatternBase := backgroundPatternBase ctrl1
  sprite8x16 := sprite8x16 ctrl1
  vblankNmiEnabled := vblankNmiEnabled ctrl1

/-! ### decodeControl2 (log 10) -/

/-- R118. -/
def monochrome (ctrl2 : Byte) : Bool := ctrl2.getLsbD 0

/-- R119: the raw bit, no polarity claimed. -/
def clipBackground (ctrl2 : Byte) : Bool := ctrl2.getLsbD 1

/-- R120: the raw bit, no polarity claimed. -/
def clipSprites (ctrl2 : Byte) : Bool := ctrl2.getLsbD 2

/-- R121. -/
def bgEnabled (ctrl2 : Byte) : Bool := ctrl2.getLsbD 3

/-- R122. -/
def spritesEnabled (ctrl2 : Byte) : Bool := ctrl2.getLsbD 4

/-- R123: bits 7:5, an unsigned value in 0..7. -/
def bgColorBits (ctrl2 : Byte) : BitVec 3 := ctrl2.extractLsb' 5 3

/-- The record decodeControl2 gives (R117). -/
structure Control2 where
  monochrome : Bool
  clipBackground : Bool
  clipSprites : Bool
  bgEnabled : Bool
  spritesEnabled : Bool
  bgColorBits : BitVec 3
deriving DecidableEq, Repr

/-- decodeControl2 (R117): stateless (R124). -/
def decodeControl2 (ctrl2 : Byte) : Control2 where
  monochrome := monochrome ctrl2
  clipBackground := clipBackground ctrl2
  clipSprites := clipSprites ctrl2
  bgEnabled := bgEnabled ctrl2
  spritesEnabled := spritesEnabled ctrl2
  bgColorBits := bgColorBits ctrl2

/-! ### Diagnostics -/

/-- The code of a diagnostic kind (`60_exceptions.md` R201). -/
def DiagKind.code : DiagKind → Nat
  | .readInvalidPort => 1
  | .readDataUnimplemented => 2
  | .writeUnimplemented => 3

end Sys2Proof.Machine
end

