-- ==== Sys2Proof/Machine/Operands.lean ====
section
/-! DEFINITION. The operand forms: the two-phase composition of a 16-bit register (`42_port_write.md` R156), the address
forms of the mapper (`20_memory.md` R62 to R65, R70), the post-increment of `vaddr` (R159) and the mirror maps (R68, R69). -/

namespace Sys2Proof.Machine

/-! ### Two-phase composition (R156) -/

/-- compose: the low phase replaces bits 7:0, the high phase bits 15:8, and the toggle flips. -/
def compose (r : Word) (t : Phase) (b : Byte) : Word × Phase :=
  match t with
  | .low => (b.zeroExtend 16 ||| (r &&& 0xFF00#16), t.flip)
  | .high => ((b.zeroExtend 16 <<< 8) ||| (r &&& 0x00FF#16), t.flip)

/-! ### PPU addresses -/

/-- normalize(a) = a & 0x3FFF (R62). -/
def normalize (a : Word) : Word := a &&& 0x3FFF#16

/-- The logical name-table slot of a normalised address, n[11:10] (R64). -/
def slot (n : Word) : Fin 4 := (n.extractLsb' 10 2).toFin

/-- The region a slot names (R34). -/
def MirrorMap.region (m : MirrorMap) (s : Fin 4) : Region :=
  match s with
  | 0 => m.slot0
  | 1 => m.slot1
  | 2 => m.slot2
  | 3 => m.slot3

/-- The first byte of a region: `mirror[s] * 1024` (R65). The low 10 bits of the address are not added. -/
def Region.base : Region → Nat
  | .region0 => 0
  | .region1 => 1024

/-- The palette index `n & 0x1F` and nothing else (R70). -/
def paletteIndex (n : Word) : Nat := (n &&& 0x001F#16).toNat

/-- The physical byte an address selects (R63). -/
def locate (m : MirrorMap) (a : Word) : Loc :=
  let n := normalize a
  if n < 0x2000#16 then ⟨.pat, n.toNat⟩
  else if n < 0x3F00#16 then ⟨.nt, (m.region (slot n)).base⟩
  else ⟨.pal, paletteIndex n⟩

/-- `(vaddr + autoIncrement(ctrl1)) mod 2^16` (R159, D9). -/
def postIncrement (vaddr : Word) (ctrl1 : Byte) : Word :=
  BitVec.ofNat 16 (vaddr.toNat + autoIncrement ctrl1)

/-! ### Mirror maps -/

/-- HORIZONTAL (R68). -/
def horizontalMap : MirrorMap := ⟨.region0, .region0, .region1, .region1⟩

/-- VERTICAL (R69). Log 13. -/
def verticalMap : MirrorMap := ⟨.region0, .region1, .region0, .region1⟩

/-- The map INIT wires, none for a mode that fails (`44_init_debug.md` R190). -/
def mirrorMapOf : MirrorType → Option MirrorMap
  | .horizontal => some horizontalMap
  | .vertical => some verticalMap
  | .cartridgeVram => none
  | .unknown _ => none

end Sys2Proof.Machine
end

