-- ==== Sys2Proof/Machine/Ops.lean ====
section
/-! DEFINITION. The shared operations: the fixed numbers of `00_scope.md` R5, the memories and the mapper (`20_memory.md`),
the lifecycle gate (`44_init_debug.md` R195), the completion of an operation with its result and events (`00_scope.md` R8),
what R45 leaves unspecified, and the interrupt collaborator's flags (`10_state.md` R38).

There is no operation that takes an exception and none that returns from one: the block has no trap entry and no trap return
(`60_exceptions.md` R200, R210, R211). What stands in their place is the event `nmiRequest` (R204) and the diagnostics
(R201). -/

namespace Sys2Proof.Machine

/-- The three outcomes of an operation of this block. -/
abbrev Outcome := Host.Outcome State Fault Refusal

/-! ### Fixed numbers (`00_scope.md` R5) -/

/-- PAT_SIZE -/
def patSize : Nat := 8192

/-- NT_SIZE -/
def ntSize : Nat := 2048

/-- PAL_SIZE -/
def palSize : Nat := 32

/-- DOTS_PER_LINE -/
def dotsPerLine : Nat := 341

/-- LINES_PER_FRAME -/
def linesPerFrame : Nat := 262

/-- VBL_CLEAR_LINE. Log 20. -/
def vblClearLine : Nat := 20

/-- VBL_SET_LINE -/
def vblSetLine : Nat := 241

/-- VIS_LINES. Log 14. -/
def visLines : Nat := 240

/-- VIS_DOTS. Log 14. -/
def visDots : Nat := 256

/-! ### One memory -/

/-- What an unlisted byte reads as: the reset contents 0x00 (`10_state.md` R35 to R37, R44). -/
def Memory.unlisted : Byte := 0x00#8

/-- Read one byte. -/
def Memory.read : Memory → Nat → Byte
  | [], _ => unlisted
  | (k, v) :: rest, a =>
    if a < k then unlisted else if a = k then v else Memory.read rest a

/-- Put a byte before the entries that follow it, unless it is what an unlisted byte reads as. -/
def Memory.entry (a : Nat) (v : Byte) (rest : Memory) : Memory :=
  if v = unlisted then rest else (a, v) :: rest

/-- Write one byte, keeping the canonical form. -/
def Memory.write : Memory → Nat → Byte → Memory
  | [], a, v => Memory.entry a v []
  | (k, b) :: rest, a, v =>
    if a < k then Memory.entry a v ((k, b) :: rest)
    else if a = k then Memory.entry a v rest
    else (k, b) :: Memory.write rest a v

/-- The canonical form from the index `lo` on, of a memory of `size` bytes. -/
def Memory.wfFrom (size : Nat) : Nat → Memory → Bool
  | _, [] => true
  | lo, (k, v) :: rest =>
    decide (lo ≤ k) && decide (k < size) && decide (v ≠ unlisted) && Memory.wfFrom size (k + 1) rest

/-- The canonical form: indexes strictly rising and below `size`, no entry equal to what an unlisted byte reads as. -/
def Memory.wf (size : Nat) (m : Memory) : Bool := Memory.wfFrom size 0 m

/-- The canonical memory of `size` bytes that a list of cells stands for, a later cell over an earlier one. -/
def Memory.ofCells (size : Nat) (cells : List Host.Cell) : Memory :=
  cells.foldl (fun m c => if c.1 < size then Memory.write m c.1 c.2 else m) []

/-! ### Physical bytes and the mapper -/

/-- The size of a memory in bytes (R35 to R37). -/
def Store.size : Store → Nat
  | .pat => patSize
  | .nt => ntSize
  | .pal => palSize

/-- Read a physical byte. -/
def State.readLoc (s : State) (l : Loc) : Byte :=
  match l.store with
  | .pat => s.pat.read l.index
  | .nt => s.nt.read l.index
  | .pal => s.pal.read l.index

/-- Write a physical byte. -/
def State.writeLoc (s : State) (l : Loc) (v : Byte) : State :=
  match l.store with
  | .pat => { s with pat := s.pat.write l.index v }
  | .nt => { s with nt := s.nt.write l.index v }
  | .pal => { s with pal := s.pal.write l.index v }

/-- MapRead (R66). No operation calls it (R72): it is the read path of the out-of-scope render hook. -/
def State.mapRead (s : State) (a : Word) : Byte := s.readLoc (locate s.mirror a)

/-- MapWrite (R67). -/
def State.mapWrite (s : State) (a : Word) (v : Byte) : State := s.writeLoc (locate s.mirror a) v

/-- All three memories are in canonical form, within their sizes. -/
def State.memWf (s : State) : Bool :=
  s.pat.wf patSize && s.nt.wf ntSize && s.pal.wf palSize

/-! ### Completion of an operation and the lifecycle gate -/

/-- Append an operation's record to the output trace (`00_scope.md` R8, R9). -/
def State.emit (s : State) (op : Instr) (result : Result) (events : List Event) : State :=
  { s with trace := ⟨op, result, events⟩ :: s.trace }

/-- The operation `op` completes in `s` with its result and its events in order (R9). -/
def complete (op : Instr) (result : Result) (events : List Event) (s : State) : Outcome :=
  .next (s.emit op result events)

/-- The gate of READ, WRITE, STEP and DEBUG_READ (R195). -/
def whenReady (s : State) (outcome : Outcome) : Outcome :=
  match s.life with
  | .uninit => .refused .notUsable
  | .ready => outcome
  | .failed => .refused .notUsable

/-- The gate of INIT (R193, R195). -/
def whenUninit (s : State) (outcome : Outcome) : Outcome :=
  match s.life with
  | .uninit => outcome
  | .ready => .refused .reInit
  | .failed => .refused .reInit

/-! ### What is unspecified (`10_state.md` R45) -/

/-- A free bit as a toggle. -/
def freePhase (draw field : Nat) : Phase :=
  if Config.freeNat draw field % 2 = 0 then .low else .high

/-- A free bit as a region. -/
def freeRegion (draw field : Nat) : Region :=
  if Config.freeNat draw field % 2 = 0 then .region0 else .region1

/-- Every register and memory takes a free value (R45). `life` and the interface stay; the draw counter advances. Log 5. -/
def State.unspecified (s : State) : State :=
  { s with
    ctrl1 := BitVec.ofNat 8 (Config.freeNat s.draws 0)
    ctrl2 := BitVec.ofNat 8 (Config.freeNat s.draws 1)
    status := BitVec.ofNat 8 (Config.freeNat s.draws 2)
    scroll := BitVec.ofNat 16 (Config.freeNat s.draws 3)
    wScroll := freePhase s.draws 4
    vaddr := BitVec.ofNat 16 (Config.freeNat s.draws 5)
    wAddr := freePhase s.draws 6
    scanline := BitVec.ofNat 9 (Config.freeNat s.draws 7)
    dot := BitVec.ofNat 9 (Config.freeNat s.draws 8)
    mirror := ⟨freeRegion s.draws 9, freeRegion s.draws 10, freeRegion s.draws 11, freeRegion s.draws 12⟩
    pat := Memory.ofCells patSize (Config.freeCells s.draws 0)
    nt := Memory.ofCells ntSize (Config.freeCells s.draws 1)
    pal := Memory.ofCells palSize (Config.freeCells s.draws 2)
    draws := s.draws + 1 }

/-- A new instance (R20, R234): never initialised, every register and memory unspecified, with the host's input. -/
def State.created (input : List Word) (allocOk : Bool) : State :=
  { State.reset.unspecified with life := .uninit, input := input, allocOk := allocOk }

/-! ### The interrupt collaborator (`10_state.md` R38) -/

/-- The shared interrupt-flags register. It belongs to the collaborator and is no state of the block (`00_scope.md` R11);
its width is not given, so its bits are those of a natural number. Log 6. -/
abbrev IrqFlags := Nat

/-- What one event does to the flags: NmiRequest ORs NMI_FLAG_MASK, and nothing else touches them (R38, R206). -/
def Event.applyToFlags (flags : IrqFlags) : Event → IrqFlags
  | .diag _ _ => flags
  | .nmiRequest => flags ||| Config.nmiFlagMask
  | .renderHook _ _ => flags
  | .frameDone => flags

/-- The flags after an operation's events. -/
def irqFlagsAfter (flags : IrqFlags) (events : List Event) : IrqFlags :=
  events.foldl Event.applyToFlags flags

end Sys2Proof.Machine
end

