-- ==== Sys2Proof/Machine/InitDebug.lean ====
section
/-! DEFINITION. Initialisation and the diagnostic read path (`44_init_debug.md`). -/

namespace Sys2Proof.Machine

/-- "reset every register and memory to its value in R44", the mirror map wired and the instance ready (R190). The interface
stays. -/
def State.initialised (s : State) (map : MirrorMap) : State :=
  { s with
    life := .ready
    ctrl1 := 0x00#8
    ctrl2 := 0x00#8
    status := 0x00#8
    scroll := 0x0000#16
    wScroll := .low
    vaddr := 0x0000#16
    wAddr := .low
    scanline := 0
    dot := 0
    mirror := map
    pat := []
    nt := []
    pal := [] }

/-- A failed INIT (R192): INIT_FAIL_CODE, the instance unusable, every register and memory unspecified (R45). -/
def initFails (m : MirrorType) (s : State) : Outcome :=
  complete (.init m) (.status Config.initFailCode) [] { s.unspecified with life := .failed }

/-- INIT (R190). -/
def execInit (m : MirrorType) (s : State) : Outcome :=
  whenUninit s
    (match mirrorMapOf m with
    | none => initFails m s
    | some map =>
      if s.allocOk then complete (.init m) (.status 0) [] (s.initialised map) else initFails m s)

/-- DEBUG_READ (R194): the sentinel 0xFF, whatever the port, and no change of state. -/
def execDebugRead (port : Port) (s : State) : Outcome :=
  whenReady s (complete (.debugRead port) (.byte 0xFF#8) [] s)

end Sys2Proof.Machine
end

