-- ==== Sys2Proof/Machine/PortRead.lean ====
section
/-! DEFINITION. The port reads (`41_port_read.md`). -/

namespace Sys2Proof.Machine

/-- An invalid read (R130): a diagnostic, the result 0x00, no change of state. -/
def readInvalid (op : Instr) (p : Port) (s : State) : Outcome :=
  whenReady s (complete op (.byte 0x00#8) [.diag .readInvalidPort p] s)

/-- READ port 0 (R131). -/
def execRead0 (s : State) : Outcome := readInvalid .read0 0 s

/-- READ port 1 (R132). -/
def execRead1 (s : State) : Outcome := readInvalid .read1 1 s

/-- READ port 2 (R133): returns `status` as it was, then clears VBL. -/
def execRead2 (s : State) : Outcome :=
  whenReady s
    (complete .read2 (.byte s.status) []
      (if vblSet s.status then { s with status := clearVbl s.status } else s))

/-- READ port 3 (R134). -/
def execRead3 (s : State) : Outcome := readInvalid .read3 3 s

/-- READ port 4 (R135). -/
def execRead4 (s : State) : Outcome := readInvalid .read4 4 s

/-- READ port 5 (R136). -/
def execRead5 (s : State) : Outcome := readInvalid .read5 5 s

/-- READ port 6 (R137). -/
def execRead6 (s : State) : Outcome := readInvalid .read6 6 s

/-- READ port 7 (R138): unimplemented; `vaddr` does not advance and memory is not read (C3). -/
def execRead7 (s : State) : Outcome :=
  whenReady s (complete .read7 (.byte 0x00#8) [.diag .readDataUnimplemented 7] s)

end Sys2Proof.Machine
end

