-- ==== Sys2Proof/Machine/PortWrite.lean ====
section
/-! DEFINITION. The port writes (`42_port_write.md`) and the assignments behind ports 0 and 1 (`40_register_decode.md`
R110). -/

namespace Sys2Proof.Machine

/-- setControl1 (R110): plain assignment, no validation. -/
def State.setControl1 (s : State) (v : Byte) : State := { s with ctrl1 := v }

/-- setControl2 (R110). -/
def State.setControl2 (s : State) (v : Byte) : State := { s with ctrl2 := v }

/-- A write to an unimplemented port (R153 to R155): a diagnostic, no change of state. -/
def writeIgnored (op : Instr) (p : Port) (s : State) : Outcome :=
  whenReady s (complete op .nothing [.diag .writeUnimplemented p] s)

/-- WRITE port 0 (R151). -/
def execWrite0 (value : Byte) (s : State) : Outcome :=
  whenReady s (complete (.write0 value) .nothing [] (s.setControl1 value))

/-- WRITE port 1 (R152). -/
def execWrite1 (value : Byte) (s : State) : Outcome :=
  whenReady s (complete (.write1 value) .nothing [] (s.setControl2 value))

/-- WRITE port 2 (R153): `status` is not written. -/
def execWrite2 (value : Byte) (s : State) : Outcome := writeIgnored (.write2 value) 2 s

/-- WRITE port 3 (R154). -/
def execWrite3 (value : Byte) (s : State) : Outcome := writeIgnored (.write3 value) 3 s

/-- WRITE port 4 (R155). -/
def execWrite4 (value : Byte) (s : State) : Outcome := writeIgnored (.write4 value) 4 s

/-- WRITE port 5 (R157): two-phase composition of `scroll`. -/
def execWrite5 (value : Byte) (s : State) : Outcome :=
  let r := compose s.scroll s.wScroll value
  whenReady s (complete (.write5 value) .nothing [] { s with scroll := r.1, wScroll := r.2 })

/-- WRITE port 6 (R158): two-phase composition of `vaddr`. -/
def execWrite6 (value : Byte) (s : State) : Outcome :=
  let r := compose s.vaddr s.wAddr value
  whenReady s (complete (.write6 value) .nothing [] { s with vaddr := r.1, wAddr := r.2 })

/-- WRITE port 7 (R159): MapWrite at `vaddr`, then the post-increment, its step decoded from `ctrl1` at this write. -/
def execWrite7 (value : Byte) (s : State) : Outcome :=
  whenReady s
    (complete (.write7 value) .nothing []
      { s.mapWrite s.vaddr value with vaddr := postIncrement s.vaddr s.ctrl1 })

end Sys2Proof.Machine
end

