-- ==== Sys2Proof/Machine/Timing.lean ====
section
/-! DEFINITION. The timing state machine: STEP and its parts (`43_timing.md` R170 to R178). -/

namespace Sys2Proof.Machine

/-- The render hook's event, if the position before the increment is visible (R171). Nothing of `ctrl2` gates it. -/
def hookEvents (s : State) : List Event :=
  if s.scanline.toNat < visLines ∧ s.dot.toNat < visDots then [.renderHook s.scanline s.dot] else []

/-- The actions on a scanline boundary transition, tested against the new scanline, already in `s` (R174 to R177), and the
events they emit. -/
def enterLine (s : State) : State × List Event :=
  if s.scanline.toNat = vblClearLine then
    ({ s with status := clearVbl s.status }, [])
  else if s.scanline.toNat = vblSetLine then
    ({ s with status := setVbl s.status }, if vblankNmiEnabled s.ctrl1 then [.nmiRequest] else [])
  else if s.scanline.toNat = linesPerFrame then
    ({ s with scanline := 0 }, [.frameDone])
  else (s, [])

/-- The dot increment (R172), the scanline increment (R173) and the boundary actions. -/
def advanceDot (s : State) : State × List Event :=
  if (s.dot + 1).toNat = dotsPerLine then enterLine { s with dot := 0, scanline := s.scanline + 1 }
  else ({ s with dot := s.dot + 1 }, [])

/-- STEP (R170): the hook test on the old position, then the rest, in the order of R178. -/
def execStep (s : State) : Outcome :=
  let a := advanceDot s
  whenReady s (complete .step .nothing (hookEvents s ++ a.2) a.1)

end Sys2Proof.Machine
end

