-- ==== Sys2Proof/Machine/Dispatch.lean ====
section
/-! DEFINITION. One arm per operation, each one call of its meaning. -/

namespace Sys2Proof.Machine

/-- The meaning of an operation. -/
def exec (i : Instr) (s : State) : Host.Outcome State Fault Refusal :=
  match i with
  | .read0 => Sys2Proof.Machine.execRead0 s
  | .read1 => Sys2Proof.Machine.execRead1 s
  | .read2 => Sys2Proof.Machine.execRead2 s
  | .read3 => Sys2Proof.Machine.execRead3 s
  | .read4 => Sys2Proof.Machine.execRead4 s
  | .read5 => Sys2Proof.Machine.execRead5 s
  | .read6 => Sys2Proof.Machine.execRead6 s
  | .read7 => Sys2Proof.Machine.execRead7 s
  | .write0 value => Sys2Proof.Machine.execWrite0 value s
  | .write1 value => Sys2Proof.Machine.execWrite1 value s
  | .write2 value => Sys2Proof.Machine.execWrite2 value s
  | .write3 value => Sys2Proof.Machine.execWrite3 value s
  | .write4 value => Sys2Proof.Machine.execWrite4 value s
  | .write5 value => Sys2Proof.Machine.execWrite5 value s
  | .write6 value => Sys2Proof.Machine.execWrite6 value s
  | .write7 value => Sys2Proof.Machine.execWrite7 value s
  | .step => Sys2Proof.Machine.execStep s
  | .init m => Sys2Proof.Machine.execInit m s
  | .debugRead port => Sys2Proof.Machine.execDebugRead port s

end Sys2Proof.Machine
end

