-- ==== Sys2Proof/Machine/Step.lean ====
section
/-! DEFINITION. One step of the block: it performs the oldest operation word the host has issued (`20_memory.md` R80). -/

namespace Sys2Proof.Machine

/-- The block performs the oldest waiting operation. An Invalid word is refused (`30_encoding.md` R100). With no operation
waiting, the block "holds its state indefinitely and does nothing" (`60_exceptions.md` R218). Log 1. -/
def step (s : State) : Host.Outcome State Fault Refusal :=
  match s.input with
  | [] => .next s
  | w :: rest =>
    match decode w with
    | .error _ => .refused .reservedWord
    | .ok i => exec i { s with input := rest }

/-- `s` with an operation word issued before those that wait: the next one the step performs. Log 28. -/
def State.withFetchWord (s : State) (nbits w : Nat) : State :=
  { s with input := tableWord nbits w :: s.input }

end Sys2Proof.Machine
end

