-- ==== Sys2Proof/Machine/Assembler.lean ====
section
/-! DEFINITION. The operation syntax and the pseudo-operations (`30_encoding.md` R103, R104), as abstract lines that expand to
operations and assemble to operation words. The notation is the spec's own (D22). -/

namespace Sys2Proof.Machine

/-- One line of a program (R103), or a pseudo-operation (R104). -/
inductive Asm where
  | rd (p : Port)
  | wr (p : Port) (v : Byte)
  | step
  /-- `step N`: N consecutive STEP operations -/
  | steps (n : Nat)
  | init (m : MirrorType)
  | dbg (p : Port)
  | setaddr (a : Word)
  | setscroll (a : Word)
  | vwrite (a : Word) (v : Byte)
  | ctrl1 (v : Byte)
  | ctrl2 (v : Byte)
  | frame
  | toline (l : Nat)
deriving DecidableEq, Repr

/-- `A & 0xFF` -/
def lowByte (a : Word) : Byte := a.extractLsb' 0 8

/-- `A >> 8` -/
def highByte (a : Word) : Byte := a.extractLsb' 8 8

/-- The two writes of `setaddr A`. -/
def setAddr (a : Word) : List Instr := [.write6 (lowByte a), .write6 (highByte a)]

/-- The operations a line stands for. -/
def Asm.expand : Asm → List Instr
  | .rd p => [readOf p]
  | .wr p v => [writeOf p v]
  | .step => [.step]
  | .steps n => List.replicate n .step
  | .init m => [.init m]
  | .dbg p => [.debugRead p]
  | .setaddr a => setAddr a
  | .setscroll a => [.write5 (lowByte a), .write5 (highByte a)]
  | .vwrite a v => setAddr a ++ [.write7 v]
  | .ctrl1 v => [.write0 v]
  | .ctrl2 v => [.write1 v]
  | .frame => List.replicate (dotsPerLine * linesPerFrame) .step
  | .toline l => List.replicate (dotsPerLine * l) .step

/-- The operation words of a program. -/
def assemble (lines : List Asm) : List Word := (lines.flatMap Asm.expand).map encode

/-- The text of a mirror type in `init` (R103). -/
def mirrorText : MirrorType → String
  | .horizontal => "horizontal"
  | .vertical => "vertical"
  | .cartridgeVram => "cartridge"
  | .unknown c => toString c.toNat

/-- The text of a line, its numbers in decimal (R103, R104). -/
def Asm.text : Asm → String
  | .rd p => "rd " ++ toString p.val
  | .wr p v => "wr " ++ toString p.val ++ ", " ++ toString v.toNat
  | .step => "step"
  | .steps n => "step " ++ toString n
  | .init m => "init " ++ mirrorText m
  | .dbg p => "dbg " ++ toString p.val
  | .setaddr a => "setaddr " ++ toString a.toNat
  | .setscroll a => "setscroll " ++ toString a.toNat
  | .vwrite a v => "vwrite " ++ toString a.toNat ++ ", " ++ toString v.toNat
  | .ctrl1 v => "ctrl1 " ++ toString v.toNat
  | .ctrl2 v => "ctrl2 " ++ toString v.toNat
  | .frame => "frame"
  | .toline l => "toline " ++ toString l

end Sys2Proof.Machine
end

