-- ==== Sys2Proof/Safety.lean ====
section
/-! DEFINITION. The terms claims use: the host's duties, the invariant of the block, what a run shows, when two states look
alike from outside. -/

namespace Sys2Proof.Machine

/-! ### The host's duties (`70_reset_and_hazards.md` R235) -/

/-- Whether the lifecycle admits an operation (R20, `44_init_debug.md` R195). -/
def admitted (life : Life) : Instr → Bool
  | .init _ => decide (life = .uninit)
  | _ => decide (life = .ready)

/-- Whether the host keeps its duties at the next step: no word, or a valid word that the lifecycle admits. -/
def State.dutiesKept (s : State) : Bool :=
  match s.input with
  | [] => true
  | w :: _ =>
    match decode w with
    | .error _ => false
    | .ok i => admitted s.life i

/-! ### The invariant -/

/-- What holds of every ready instance: `10_state.md` R26, R33, R34, R36 and the vertical-blank window of
`95_test_vectors.md` T8. -/
structure State.ReadyInv (s : State) : Prop where
  /-- R26 -/
  status_reserved : s.status &&& 0x7F#8 = 0#8
  /-- R33 -/
  scanline_le : s.scanline.toNat ≤ 261
  /-- R33 -/
  dot_le : s.dot.toNat ≤ 340
  /-- R34, R68, R69 -/
  mirror_wired : s.mirror = horizontalMap ∨ s.mirror = verticalMap
  /-- R36 -/
  nt_unreachable : ∀ i, i ≠ 0 → i ≠ 1024 → s.nt.read i = 0x00#8
  /-- T8 -/
  vbl_window : 20 ≤ s.scanline.toNat → s.scanline.toNat ≤ 240 → vblSet s.status = false

/-- The invariant: the memories keep their canonical form, and a ready instance meets `ReadyInv`. Of an instance that is not
ready nothing more is said, since its registers are unspecified (R45). -/
structure State.Inv (s : State) : Prop where
  mem_wf : s.memWf = true
  ready_inv : s.life = .ready → s.ReadyInv

/-! ### Runs -/

/-- `k` steps from `s` lead to `t`, without a refusal. -/
def runsTo (k : Nat) (s t : State) : Prop := Host.Core.run Sys2Proof.core k s = .next t

/-- The events of a trace, in no particular order of operations (the trace is newest first). -/
def eventsOf (tr : List Record) : List Event := tr.flatMap Record.events

/-- Whether an event is a call of the render hook. -/
def Event.isRenderHook : Event → Bool
  | .renderHook _ _ => true
  | _ => false

/-- The input of `k` STEP words followed by `rest`. -/
def stepWords (k : Nat) (rest : List Word) : List Word := List.replicate k 0x2000#16 ++ rest

/-- Whether an operation is a READ (`41_port_read.md`). -/
def isRead : Instr → Bool
  | .read0 | .read1 | .read2 | .read3 | .read4 | .read5 | .read6 | .read7 => true
  | _ => false

/-- Whether an operation is an INIT. -/
def isInit : Instr → Bool
  | .init _ => true
  | _ => false

/-- Two states that agree on what can ever show in the output trace: the lifecycle, the interrupt enable, `status`, the timing
position and the interface. They may differ in the rest of `ctrl1`, in `ctrl2`, `scroll`, `vaddr`, both toggles, the mirror map
and every memory. -/
structure SeenAlike (s t : State) : Prop where
  life : s.life = t.life
  nmi_enabled : s.ctrl1.getLsbD 7 = t.ctrl1.getLsbD 7
  status : s.status = t.status
  scanline : s.scanline = t.scanline
  dot : s.dot = t.dot
  input : s.input = t.input
  alloc_ok : s.allocOk = t.allocOk
  trace : s.trace = t.trace

end Sys2Proof.Machine
end

