-- ==== Sys2Proof/Certificates/Slice0/Obligations.lean ====
section
/-! DEFINITION. The statements for the provers, from the numbered rules of spec/. -/

open Sys2Proof Sys2Proof.Machine

/-! ### Reset and INIT -/

/-- The state the model calls reset has the values of R44 (`10_state.md`), with the HORIZONTAL mirror map of log 2, and every
byte of the three memories is 0x00. -/
def Obligations.ResetStateHasTheResetValues : Prop :=
  State.reset.life = .ready ∧ State.reset.ctrl1 = 0x00#8 ∧ State.reset.ctrl2 = 0x00#8 ∧ State.reset.status = 0x00#8 ∧
  State.reset.scroll = 0x0000#16 ∧ State.reset.wScroll = .low ∧ State.reset.vaddr = 0x0000#16 ∧
  State.reset.wAddr = .low ∧ State.reset.scanline = 0 ∧ State.reset.dot = 0 ∧
  State.reset.mirror = ⟨.region0, .region0, .region1, .region1⟩ ∧
  ∀ l : Loc, State.reset.readLoc l = 0x00#8

/-- R190, R191, R193 and the table of R44: INIT's word; its refusal when `life` is not uninit; its success with either mode and
`allocOk`, which returns 0, emits nothing and leaves exactly the reset state with the mode's mirror map; its failure otherwise,
with INIT_FAIL_CODE. -/
def Obligations.InitByModeAndAllocation : Prop :=
  (∀ m : MirrorType, (encode (.init m)).toNat = 0x3000 + m.code.toNat) ∧
  (∀ (m : MirrorType) (s : State), s.life ≠ .uninit → exec (.init m) s = .refused .reInit) ∧
  (∀ (m : MirrorType) (map : MirrorMap) (s : State), s.life = .uninit → s.allocOk = true →
    (m = .horizontal ∧ map = ⟨.region0, .region0, .region1, .region1⟩ ∨
      m = .vertical ∧ map = ⟨.region0, .region1, .region0, .region1⟩) →
    ∃ t : State, exec (.init m) s = .next t ∧
      t.life = .ready ∧ t.ctrl1 = 0x00#8 ∧ t.ctrl2 = 0x00#8 ∧ t.status = 0x00#8 ∧ t.scroll = 0x0000#16 ∧
      t.wScroll = .low ∧ t.vaddr = 0x0000#16 ∧ t.wAddr = .low ∧ t.scanline = 0 ∧ t.dot = 0 ∧ t.mirror = map ∧
      (∀ l : Loc, t.readLoc l = 0x00#8) ∧
      t.trace = ⟨.init m, .status 0, []⟩ :: s.trace ∧ t.input = s.input) ∧
  (∀ (m : MirrorType) (s : State), s.life = .uninit →
    (m ≠ .horizontal ∧ m ≠ .vertical ∨ s.allocOk = false) →
    ∃ t : State, exec (.init m) s = .next t ∧ t.life = .failed ∧
      t.trace = ⟨.init m, .status Config.initFailCode, []⟩ :: s.trace ∧ t.input = s.input)

/-- R192: a failed INIT returns a nonzero code, sets `life` to failed, and every later operation is refused. -/
def Obligations.FailedInitLeavesInstanceUnusable : Prop :=
  Config.initFailCode ≠ 0 ∧
  ∀ (m : MirrorType) (s : State), s.life = .uninit →
    (m ≠ .horizontal ∧ m ≠ .vertical ∨ s.allocOk = false) →
    ∃ t : State, exec (.init m) s = .next t ∧ t.life = .failed ∧
      t.trace = ⟨.init m, .status Config.initFailCode, []⟩ :: s.trace ∧
      ∀ i : Instr, exec i t = .refused (if isInit i then .reInit else .notUsable)

/-- R234: a created instance (R20, every register unspecified) whose first word is INIT with a mode that succeeds is reset by its
first step, and any other valid first word is refused. Rests on log 1 and log 5 for the form of a created instance. -/
def Obligations.CreatedInstanceBootsByInit : Prop :=
  ∀ (rest : List Word),
    (∀ m map, mirrorMapOf m = some map →
      ∃ t : State, runsTo 1 (State.created (encode (.init m) :: rest) true) t ∧
        t = { State.reset with
          mirror := map, input := rest, trace := [⟨.init m, .status 0, []⟩], draws := t.draws }) ∧
    (∀ w i ok, decode w = .ok i → isInit i = false →
      step (State.created (w :: rest) ok) = .refused .notUsable)

/-! ### Lifecycle -/

/-- R195, R193: the lifecycle gate, for every operation and every `life`. -/
def Obligations.LifecycleGateByOperation : Prop :=
  ∀ (i : Instr) (s : State),
    (isInit i = true → (s.life = .uninit → ∃ t : State, exec i s = .next t) ∧
      (s.life ≠ .uninit → exec i s = .refused .reInit)) ∧
    (isInit i = false → (s.life = .ready → ∃ t : State, exec i s = .next t) ∧
      (s.life ≠ .ready → exec i s = .refused .notUsable))

/-- R20: an instance is uninit when created; INIT makes it ready or failed, and nothing else changes `life`; what an
operation requires of `life`, and that any other combination is refused. -/
def Obligations.LifeChangesOnlyByInit : Prop :=
  (∀ (input : List Word) (ok : Bool), (State.created input ok).life = .uninit) ∧
  (∀ (i : Instr) (s t : State), exec i s = .next t → isInit i = false → s.life = .ready ∧ t.life = .ready) ∧
  (∀ (m : MirrorType) (s t : State), exec (.init m) s = .next t →
    s.life = .uninit ∧
    (t.life = .ready ↔ s.allocOk = true ∧ (m = .horizontal ∨ m = .vertical)) ∧
    (t.life = .failed ↔ ¬ (s.allocOk = true ∧ (m = .horizontal ∨ m = .vertical)))) ∧
  (∀ (i : Instr) (s : State), (isInit i = true ∧ s.life ≠ .uninit ∨ isInit i = false ∧ s.life ≠ .ready) →
    ∃ r : Refusal, exec i s = .refused r)

/-! ### Port reads -/

/-- R131, R132, R134 to R137: the six invalid reads, each with its word, its result, its one event, no other change, and its
refusal. -/
def Obligations.InvalidReadsReturnZeroAndDiagnose : Prop :=
  ∀ x ∈ ([(.read0, 0, 0x0000#16), (.read1, 1, 0x0100#16), (.read3, 3, 0x0300#16), (.read4, 4, 0x0400#16),
      (.read5, 5, 0x0500#16), (.read6, 6, 0x0600#16)] : List (Instr × Port × Word)),
    encode x.1 = x.2.2 ∧
    ∀ s : State,
      (s.life = .ready →
        exec x.1 s =
          .next { s with trace := ⟨x.1, .byte 0x00#8, [.diag .readInvalidPort x.2.1]⟩ :: s.trace }) ∧
      (s.life ≠ .ready → exec x.1 s = .refused .notUsable)

/-- R133: READ port 2 returns `status` as it was and clears bit 7 and nothing else; no event. -/
def Obligations.StatusReadReturnsThenClearsVbl : Prop :=
  encode .read2 = 0x0200#16 ∧
  ∀ s : State,
    (s.life = .ready →
      exec .read2 s =
        .next { s with
          status := s.status &&& 0x7F#8
          trace := ⟨.read2, .byte s.status, []⟩ :: s.trace }) ∧
    (s.life ≠ .ready → exec .read2 s = .refused .notUsable)

/-- R138: READ port 7 returns 0x00 with a diagnostic; `vaddr` and memory are as before. -/
def Obligations.DataReadIsUnimplemented : Prop :=
  encode .read7 = 0x0700#16 ∧
  ∀ s : State,
    (s.life = .ready →
      exec .read7 s =
        .next { s with trace := ⟨.read7, .byte 0x00#8, [.diag .readDataUnimplemented 7]⟩ :: s.trace }) ∧
    (s.life ≠ .ready → exec .read7 s = .refused .notUsable)

/-- R139 (the spec's own inference from R131 to R138): what no READ changes, and what is special of READ port 2. -/
def Obligations.ReadsChangeOnlyVbl : Prop :=
  ∀ (i : Instr) (s t : State), isRead i = true → exec i s = .next t →
    ∃ (st : Byte) (r : Byte) (events : List Event),
      t = { s with status := st, trace := ⟨i, .byte r, events⟩ :: s.trace } ∧
      st &&& 0x7F#8 = s.status &&& 0x7F#8 ∧
      (i ≠ .read2 → st = s.status ∧ r = 0x00#8 ∧ ∃ (k : DiagKind) (p : Port), events = [.diag k p]) ∧
      (i = .read2 → r = s.status ∧ events = [])

/-- R239 and E6: two status reads in a row: the second returns `status` with VBL clear. -/
def Obligations.SecondStatusReadSeesVblClear : Prop :=
  ∀ (s : State) (rest : List Word), s.life = .ready → s.input = 0x0200#16 :: 0x0200#16 :: rest →
    ∃ t : State, runsTo 2 s t ∧
      t = { s with
        status := s.status &&& 0x7F#8
        input := rest
        trace := ⟨.read2, .byte (s.status &&& 0x7F#8), []⟩ :: ⟨.read2, .byte s.status, []⟩ :: s.trace }

/-- R194: DEBUG_READ returns 0xFF for every port and changes nothing. -/
def Obligations.DebugReadReturnsSentinel : Prop :=
  ∀ p : Port,
    (encode (.debugRead p)).toNat = 0x4000 + p.val * 256 ∧
    ∀ s : State,
      (s.life = .ready →
        exec (.debugRead p) s = .next { s with trace := ⟨.debugRead p, .byte 0xFF#8, []⟩ :: s.trace }) ∧
      (s.life ≠ .ready → exec (.debugRead p) s = .refused .notUsable)

/-! ### Port writes -/

/-- R151, R152: ports 0 and 1 assign the whole byte, emit nothing and change nothing else. -/
def Obligations.ControlWritesAssignTheByte : Prop :=
  ∀ v : Byte,
    (encode (.write0 v)).toNat = 0x1000 + v.toNat ∧ (encode (.write1 v)).toNat = 0x1100 + v.toNat ∧
    ∀ s : State,
      (s.life = .ready →
        exec (.write0 v) s = .next { s with ctrl1 := v, trace := ⟨.write0 v, .nothing, []⟩ :: s.trace } ∧
        exec (.write1 v) s = .next { s with ctrl2 := v, trace := ⟨.write1 v, .nothing, []⟩ :: s.trace }) ∧
      (s.life ≠ .ready →
        exec (.write0 v) s = .refused .notUsable ∧ exec (.write1 v) s = .refused .notUsable)

/-- R153 to R155: ports 2, 3 and 4 emit a diagnostic and change nothing. -/
def Obligations.UnimplementedWritesOnlyDiagnose : Prop :=
  ∀ v : Byte,
    ∀ x ∈ ([(.write2 v, 2, 0x1200), (.write3 v, 3, 0x1300), (.write4 v, 4, 0x1400)] : List (Instr × Port × Nat)),
      (encode x.1).toNat = x.2.2 + v.toNat ∧
      ∀ s : State,
        (s.life = .ready →
          exec x.1 s =
            .next { s with trace := ⟨x.1, .nothing, [.diag .writeUnimplemented x.2.1]⟩ :: s.trace }) ∧
        (s.life ≠ .ready → exec x.1 s = .refused .notUsable)

/-- R156: the composition by phase. A low-phase byte replaces bits 7:0 and keeps bits 15:8; a high-phase byte replaces bits
15:8 and keeps bits 7:0; the toggle flips each time; nothing is masked. -/
def Obligations.ComposeFillsHalfByPhase : Prop :=
  ∀ (r : Word) (b : Byte),
    ((compose r .low b).1.toNat = r.toNat / 256 * 256 + b.toNat ∧ (compose r .low b).2 = .high) ∧
    ((compose r .high b).1.toNat = b.toNat * 256 + r.toNat % 256 ∧ (compose r .high b).2 = .low)

/-- R157, R158: ports 5 and 6 fill one half of their own register by their own toggle, flip that toggle, and change nothing
else. -/
def Obligations.ScrollAndAddressWritesAreTwoPhase : Prop :=
  ∀ v : Byte,
    (encode (.write5 v)).toNat = 0x1500 + v.toNat ∧ (encode (.write6 v)).toNat = 0x1600 + v.toNat ∧
    ∀ s : State,
      (s.life = .ready →
        (s.wScroll = .low → exec (.write5 v) s =
          .next { s with
            scroll := s.scroll.extractLsb' 8 8 ++ v, wScroll := .high
            trace := ⟨.write5 v, .nothing, []⟩ :: s.trace }) ∧
        (s.wScroll = .high → exec (.write5 v) s =
          .next { s with
            scroll := v ++ s.scroll.extractLsb' 0 8, wScroll := .low
            trace := ⟨.write5 v, .nothing, []⟩ :: s.trace }) ∧
        (s.wAddr = .low → exec (.write6 v) s =
          .next { s with
            vaddr := s.vaddr.extractLsb' 8 8 ++ v, wAddr := .high
            trace := ⟨.write6 v, .nothing, []⟩ :: s.trace }) ∧
        (s.wAddr = .high → exec (.write6 v) s =
          .next { s with
            vaddr := v ++ s.vaddr.extractLsb' 0 8, wAddr := .low
            trace := ⟨.write6 v, .nothing, []⟩ :: s.trace })) ∧
      (s.life ≠ .ready →
        exec (.write5 v) s = .refused .notUsable ∧ exec (.write6 v) s = .refused .notUsable)

/-- R159: port 7 writes at `vaddr` as it was, then advances it by 1 or 32 mod 2^16. -/
def Obligations.DataWriteStoresThenIncrements : Prop :=
  ∀ v : Byte,
    (encode (.write7 v)).toNat = 0x1700 + v.toNat ∧
    ∀ s : State,
      (s.life = .ready →
        ∃ t : State, exec (.write7 v) s = .next t ∧
          t.vaddr.toNat = (s.vaddr.toNat + if s.ctrl1.getLsbD 2 then 32 else 1) % 2 ^ 16 ∧
          t = { s.mapWrite s.vaddr v with
            vaddr := t.vaddr
            trace := ⟨.write7 v, .nothing, []⟩ :: s.trace }) ∧
      (s.life ≠ .ready → exec (.write7 v) s = .refused .notUsable)

/-- The frame of WRITE port 7: the byte at the address `locate` computes from `vaddr` holds the value, every other physical
byte reads as before, and of the registers only `vaddr` changes. The premise is the canonical form of the memories, which the
invariant keeps. -/
def Obligations.DataWriteFrame : Prop :=
  ∀ (v : Byte) (s : State), s.memWf = true → s.life = .ready →
    ∃ t : State, exec (.write7 v) s = .next t ∧
      t.readLoc (locate s.mirror s.vaddr) = v ∧
      (∀ l : Loc, l ≠ locate s.mirror s.vaddr → t.readLoc l = s.readLoc l) ∧
      { t with vaddr := s.vaddr, pat := s.pat, nt := s.nt, pal := s.pal, trace := s.trace } = s

/-! ### The mapper -/

/-- R62: every access is normalised to 14 bits. -/
def Obligations.MapperNormalisesTo14Bits : Prop :=
  ∀ (s : State) (a : Word),
    s.mapRead a = s.mapRead (a &&& 0x3FFF#16) ∧ ∀ v : Byte, s.mapWrite a v = s.mapWrite (a &&& 0x3FFF#16) v

/-- R63, R64, R66: which byte MapRead returns, by the three ranges of the normalised address, the slot being n[11:10]. -/
def Obligations.MapReadByRegion : Prop :=
  ∀ (s : State) (a : Word),
    let n := a.toNat % 16384
    (n < 0x2000 → s.mapRead a = s.pat.read n) ∧
    (0x2000 ≤ n → n < 0x3F00 →
      s.mapRead a = s.nt.read (if s.mirror.region (Fin.ofNat 4 (n / 1024)) = .region0 then 0 else 1024)) ∧
    (0x3F00 ≤ n → s.mapRead a = s.pal.read (n % 32))

/-- R67: MapWrite stores the value at the byte R63 names, by the three ranges, and changes no other byte and no register. The
premise is the canonical form of the memories. -/
def Obligations.MapWriteStoresOneByte : Prop :=
  ∀ (s : State) (a : Word) (v : Byte), s.memWf = true →
    let n := a.toNat % 16384
    let l : Loc :=
      if n < 0x2000 then ⟨.pat, n⟩
      else if n < 0x3F00 then ⟨.nt, if s.mirror.region (Fin.ofNat 4 (n / 1024)) = .region0 then 0 else 1024⟩
      else ⟨.pal, n % 32⟩
    (∀ l' : Loc, (s.mapWrite a v).readLoc l' = if l' = l then v else s.readLoc l') ∧
    { s.mapWrite a v with pat := s.pat, nt := s.nt, pal := s.pal } = s

/-- R65: all addresses of one name-table slot alias one byte, the first of the slot's region. -/
def Obligations.NameTableSlotAliasesOneByte : Prop :=
  ∀ (s : State) (a b : Word) (v : Byte), s.memWf = true →
    0x2000 ≤ a.toNat % 16384 → a.toNat % 16384 < 0x3F00 → 0x2000 ≤ b.toNat % 16384 → b.toNat % 16384 < 0x3F00 →
    a.toNat / 1024 % 4 = b.toNat / 1024 % 4 →
    (s.mapWrite a v).mapRead b = v ∧ locate s.mirror a = locate s.mirror b ∧
    (locate s.mirror a = ⟨.nt, 0⟩ ∨ locate s.mirror a = ⟨.nt, 1024⟩)

/-- R68, R69: the mirror maps, and what they pair: after INIT with a mode, a byte written at the base of a slot is read at the
base of exactly the slots paired with it. -/
def Obligations.MirrorModesPairSlots : Prop :=
  ∀ (s t : State) (v : Byte) (i j : Fin 4), t.life = .ready →
    (exec (.init .horizontal) s = .next t →
      t.mirror = ⟨.region0, .region0, .region1, .region1⟩ ∧
      (t.mapWrite (BitVec.ofNat 16 (0x2000 + 1024 * i.val)) v).mapRead (BitVec.ofNat 16 (0x2000 + 1024 * j.val)) =
        if i.val / 2 = j.val / 2 then v else 0x00#8) ∧
    (exec (.init .vertical) s = .next t →
      t.mirror = ⟨.region0, .region1, .region0, .region1⟩ ∧
      (t.mapWrite (BitVec.ofNat 16 (0x2000 + 1024 * i.val)) v).mapRead (BitVec.ofNat 16 (0x2000 + 1024 * j.val)) =
        if i.val % 2 = j.val % 2 then v else 0x00#8)

/-- R70: the palette folds modulo 32 and no further. -/
def Obligations.PaletteFoldsModulo32 : Prop :=
  ∀ (s : State) (a : Word), 0x3F00 ≤ a.toNat % 16384 →
    s.mapRead a = s.mapRead (BitVec.ofNat 16 (0x3F00 + a.toNat % 32)) ∧
    (∀ (b : Word) (v : Byte), s.memWf = true → 0x3F00 ≤ b.toNat % 16384 → a.toNat % 32 ≠ b.toNat % 32 →
      (s.mapWrite b v).mapRead a = s.mapRead a)

/-- The canonical form is canonical (log 21): two well-formed memories with equal bytes are equal. -/
def Obligations.CanonicalMemoriesWithEqualBytesAreEqual : Prop :=
  ∀ (size : Nat) (m m' : Memory), m.wf size = true → m'.wf size = true → (∀ a, m.read a = m'.read a) → m = m'

/-! ### The control registers -/

/-- R111 to R116: the record of decodeControl1, bit by bit, and that bits 1:0 and 6 decode to nothing. -/
def Obligations.Control1DecodesByBit : Prop :=
  ∀ c : Byte,
    (decodeControl1 c).autoIncrement = (if c.toNat / 4 % 2 = 1 then 32 else 1) ∧
    (decodeControl1 c).spritePatternBase = (if c.toNat / 8 % 2 = 1 then 0x1000#16 else 0x0000#16) ∧
    (decodeControl1 c).backgroundPatternBase = (if c.toNat / 16 % 2 = 1 then 0x1000#16 else 0x0000#16) ∧
    (decodeControl1 c).sprite8x16 = decide (c.toNat / 32 % 2 = 1) ∧
    (decodeControl1 c).vblankNmiEnabled = decide (c.toNat / 128 % 2 = 1) ∧
    decodeControl1 c = decodeControl1 (c &&& 0xBC#8)

/-- R117 to R123: the record of decodeControl2, bit by bit. -/
def Obligations.Control2DecodesByBit : Prop :=
  ∀ c : Byte,
    (decodeControl2 c).monochrome = decide (c.toNat % 2 = 1) ∧
    (decodeControl2 c).clipBackground = decide (c.toNat / 2 % 2 = 1) ∧
    (decodeControl2 c).clipSprites = decide (c.toNat / 4 % 2 = 1) ∧
    (decodeControl2 c).bgEnabled = decide (c.toNat / 8 % 2 = 1) ∧
    (decodeControl2 c).spritesEnabled = decide (c.toNat / 16 % 2 = 1) ∧
    (decodeControl2 c).bgColorBits.toNat = c.toNat / 32

/-! ### Encoding -/

/-- R99 and R100: the decoding algorithm by the word's fields, with `cls`, `z`, `p` and `d` computed as numbers, and the refusal
of an Invalid word. That the refusal looks at the word before `life` is the model's reading, DEDUCED in log 17. -/
def Obligations.DecoderFollowsFields : Prop :=
  (∀ w : Word,
    let cls := w.toNat / 4096
    let z := w.toNat / 2048 % 2
    let p := w.toNat / 256 % 8
    let d := w.toNat % 256
    (decode w).toOption =
      if z ≠ 0 then none
      else if cls = 0 then (if d = 0 then some (readOf (Fin.ofNat 8 p)) else none)
      else if cls = 1 then some (writeOf (Fin.ofNat 8 p) (BitVec.ofNat 8 d))
      else if cls = 2 then (if p = 0 ∧ d = 0 then some .step else none)
      else if cls = 3 then (if p = 0 then some (.init (.ofCode (BitVec.ofNat 8 d))) else none)
      else if cls = 4 then (if d = 0 then some (.debugRead (Fin.ofNat 8 p)) else none)
      else none) ∧
  (∀ (s : State) (w : Word) (rest : List Word), s.input = w :: rest → (decode w).toOption = none →
    step s = .refused .reservedWord)

/-- The table of R99: a word decodes to an operation exactly when the operation's row covers it, and the rows are the nineteen
of the table. -/
def Obligations.DecodeMatchesOpcodeTable : Prop :=
  opcodeRows.length = 19 ∧
  (∀ (w : Word) (i : Instr), decode w = .ok i → rowOf i ∈ opcodeRows ∧ (rowOf i).covers w = true) ∧
  (∀ (w : Word) (r : OpcodeRow), r ∈ opcodeRows → r.covers w = true → ∃ i : Instr, decode w = .ok i ∧ rowOf i = r)

/-- The round trip: every well-formed operation, with every operand, is what its word decodes to. -/
def Obligations.DecodeOfEncode : Prop :=
  ∀ i : Instr, i.wellFormed = true → decode (encode i) = .ok i

/-- The other direction: a valid word is the word of the well-formed operation it decodes to, so each operation has one word. -/
def Obligations.EncodeOfDecode : Prop :=
  ∀ (w : Word) (i : Instr), decode w = .ok i → encode i = w ∧ i.wellFormed = true

/-- Words written out from R93 to R96 and T1. -/
def Obligations.WrittenOutWordsDecode : Prop :=
  decode 0x0200#16 = .ok .read2 ∧ decode 0x1680#16 = .ok (.write6 0x80#8) ∧ decode 0x2000#16 = .ok .step ∧
  decode 0x3001#16 = .ok (.init .vertical) ∧ decode 0x30FF#16 = .ok (.init (.unknown 0xFF#8)) ∧
  decode 0x4700#16 = .ok (.debugRead 7)

/-! ### STEP -/

/-- R170 to R173 and R176: STEP's word and its refusal; the hook event by the old position; within a line the dot alone
advances; at the end of a line the next line begins, with the actions at 20, 241 and 262. -/
def Obligations.StepByPosition : Prop :=
  encode .step = 0x2000#16 ∧
  ∀ s : State,
    (s.life ≠ .ready → exec .step s = .refused .notUsable) ∧
    (s.life = .ready →
      (s.dot ≠ 340 → exec .step s =
        .next { s with
          dot := s.dot + 1
          trace := ⟨.step, .nothing,
            if s.scanline.toNat < 240 ∧ s.dot.toNat < 256 then [.renderHook s.scanline s.dot] else []⟩ :: s.trace }) ∧
      (s.dot = 340 → s.scanline ≠ 19 → s.scanline ≠ 240 → s.scanline ≠ 261 → exec .step s =
        .next { s with dot := 0, scanline := s.scanline + 1, trace := ⟨.step, .nothing, []⟩ :: s.trace }) ∧
      (s.dot = 340 → s.scanline = 19 → exec .step s =
        .next { s with
          dot := 0, scanline := 20, status := s.status &&& 0x7F#8
          trace := ⟨.step, .nothing, []⟩ :: s.trace }) ∧
      (s.dot = 340 → s.scanline = 240 → exec .step s =
        .next { s with
          dot := 0, scanline := 241, status := s.status ||| 0x80#8
          trace := ⟨.step, .nothing, if s.ctrl1.getLsbD 7 then [.nmiRequest] else []⟩ :: s.trace }) ∧
      (s.dot = 340 → s.scanline = 261 → exec .step s =
        .next { s with dot := 0, scanline := 0, trace := ⟨.step, .nothing, [.frameDone]⟩ :: s.trace }))

/-- R174: entering scanline 20 clears VBL, and besides that only a status read clears it. -/
def Obligations.VblClearedOnlyAtLine20OrByStatusRead : Prop :=
  (∀ s : State, s.life = .ready → s.scanline = 19 → s.dot = 340 →
    ∃ t : State, exec .step s = .next t ∧ t.scanline = 20 ∧ t.dot = 0 ∧ t.status = s.status &&& 0x7F#8 ∧
      t.trace = ⟨.step, .nothing, []⟩ :: s.trace) ∧
  (∀ (i : Instr) (s t : State), isInit i = false → exec i s = .next t →
    s.status.getLsbD 7 = true → t.status.getLsbD 7 = false →
    i = .read2 ∨ i = .step ∧ s.scanline = 19 ∧ s.dot = 340)

/-- R175: entering scanline 241 sets VBL, whatever it was, and requests the interrupt exactly when `ctrl1` bit 7 is set, the
collaborator ORing the mask into its flags (log 6 for those flags). -/
def Obligations.EnteringLine241SetsVblAndRequests : Prop :=
  ∀ (s : State) (flags : IrqFlags), s.life = .ready → s.scanline = 240 → s.dot = 340 →
    ∃ (t : State) (events : List Event), exec .step s = .next t ∧ t.scanline = 241 ∧ t.dot = 0 ∧
      t.status = s.status ||| 0x80#8 ∧ t.trace = ⟨.step, .nothing, events⟩ :: s.trace ∧
      (Event.nmiRequest ∈ events ↔ s.ctrl1.getLsbD 7 = true) ∧
      irqFlagsAfter flags events = if s.ctrl1.getLsbD 7 then flags ||| Config.nmiFlagMask else flags

/-- R205, R207: the interrupt is requested by no operation but the STEP that enters scanline 241 with `ctrl1` bit 7 set. -/
def Obligations.NmiRequestedOnlyOnEnteringLine241 : Prop :=
  ∀ (i : Instr) (s t : State) (r : Result) (events : List Event), exec i s = .next t →
    t.trace = ⟨i, r, events⟩ :: s.trace →
    (Event.nmiRequest ∈ events ↔ i = .step ∧ s.scanline = 240 ∧ s.dot = 340 ∧ s.ctrl1.getLsbD 7 = true)

/-- R38, R206: the flags gain the mask when a request is among an operation's events, however often, and are otherwise as
before; no bit of them is ever cleared. The flags' form is log 6. -/
def Obligations.IrqFlagsOnlyGainTheMask : Prop :=
  ∀ (flags : IrqFlags) (events : List Event),
    (Event.nmiRequest ∈ events → irqFlagsAfter flags events = flags ||| Config.nmiFlagMask) ∧
    (Event.nmiRequest ∉ events → irqFlagsAfter flags events = flags) ∧
    ∀ b, flags.testBit b = true → (irqFlagsAfter flags events).testBit b = true

/-- R179 (the spec's own inference): what STEP writes, and that what it writes and emits depends on the position, `ctrl1` bit 7
and `status` alone. -/
def Obligations.StepTouchesOnlyTimingAndVbl : Prop :=
  (∀ s t : State, exec .step s = .next t →
    t = { s with scanline := t.scanline, dot := t.dot, status := t.status, trace := t.trace } ∧
    t.status &&& 0x7F#8 = s.status &&& 0x7F#8) ∧
  (∀ s s' t : State, exec .step s = .next t →
    s'.life = s.life → s'.scanline = s.scanline → s'.dot = s.dot → s'.status = s.status →
    s'.ctrl1.getLsbD 7 = s.ctrl1.getLsbD 7 →
    ∃ t' : State, exec .step s' = .next t' ∧ t'.scanline = t.scanline ∧ t'.dot = t.dot ∧ t'.status = t.status ∧
      t'.trace.head? = t.trace.head?)

/-- R245: no operation but STEP advances the position (INIT leaves (0, 0)); STEP advances it by one dot. -/
def Obligations.PositionAdvancesOnlyByStep : Prop :=
  ∀ (i : Instr) (s t : State), exec i s = .next t →
    (isInit i = false → i ≠ .step → t.scanline = s.scanline ∧ t.dot = s.dot) ∧
    (isInit i = true → t.life = .ready → t.scanline = 0 ∧ t.dot = 0) ∧
    (i = .step → s.scanline.toNat ≤ 261 → s.dot.toNat ≤ 340 →
      t.scanline.toNat ≤ 261 ∧ t.dot.toNat ≤ 340 ∧
        t.scanline.toNat * 341 + t.dot.toNat = (s.scanline.toNat * 341 + s.dot.toNat + 1) % 89342)

/-! ### Events and whole-machine rules -/

/-- R201: which operations emit which diagnostic, with its code and default result, and that such an operation changes no
state. -/
def Obligations.DiagnosticsByOperation : Prop :=
  (DiagKind.code .readInvalidPort = 1 ∧ DiagKind.code .readDataUnimplemented = 2 ∧
    DiagKind.code .writeUnimplemented = 3) ∧
  ∀ (i : Instr) (s t : State) (r : Result) (events : List Event) (k : DiagKind) (p : Port), exec i s = .next t →
    t.trace = ⟨i, r, events⟩ :: s.trace →
    (Event.diag k p ∈ events ↔
      (k = .readInvalidPort ∧ p ∈ ([0, 1, 3, 4, 5, 6] : List Port) ∧ i = readOf p) ∨
      (k = .readDataUnimplemented ∧ p = 7 ∧ i = .read7) ∨
      (k = .writeUnimplemented ∧ p ∈ ([2, 3, 4] : List Port) ∧ ∃ v : Byte, i = writeOf p v)) ∧
    (Event.diag k p ∈ events →
      t = { s with trace := ⟨i, r, [.diag k p]⟩ :: s.trace } ∧
      r = if k = .writeUnimplemented then .nothing else .byte 0x00#8)

/-- R208 (the spec's own inference): the events of one operation are a render hook or none, then at most one other event, and
only STEP emits a hook, a request or a frame's end. -/
def Obligations.EventOrderWithinAnOperation : Prop :=
  ∀ (i : Instr) (s t : State), exec i s = .next t →
    ∃ (r : Result) (hook signal : List Event), t.trace = ⟨i, r, hook ++ signal⟩ :: s.trace ∧
      (hook = [] ∨ hook = [.renderHook s.scanline s.dot]) ∧
      (signal = [] ∨ signal = [.nmiRequest] ∨ signal = [.frameDone] ∨ ∃ k p, signal = [.diag k p]) ∧
      (i = .step → ∀ k p, Event.diag k p ∉ signal) ∧
      (i ≠ .step → hook = [] ∧ Event.nmiRequest ∉ signal ∧ Event.frameDone ∉ signal)

/-- R31: each toggle flips with a write to its own port; nothing else but INIT changes it, and INIT leaves both low. -/
def Obligations.TogglesFlipOnlyWithTheirPort : Prop :=
  ∀ (i : Instr) (s t : State), exec i s = .next t →
    (isInit i = true → t.life = .ready → t.wScroll = .low ∧ t.wAddr = .low) ∧
    (isInit i = false →
      (((∃ v, i = .write5 v) → t.wScroll = s.wScroll.flip) ∧ ((¬ ∃ v, i = .write5 v) → t.wScroll = s.wScroll)) ∧
      (((∃ v, i = .write6 v) → t.wAddr = s.wAddr.flip) ∧ ((¬ ∃ v, i = .write6 v) → t.wAddr = s.wAddr)))

/-- R34: nothing but INIT writes the mirror map; and no operation but WRITE port 7 and INIT changes a byte of memory (R72). -/
def Obligations.MirrorAndMemoryHaveOneWriter : Prop :=
  ∀ (i : Instr) (s t : State), exec i s = .next t → isInit i = false →
    t.mirror = s.mirror ∧ ((¬ ∃ v, i = .write7 v) → ∀ l : Loc, t.readLoc l = s.readLoc l)

/-! ### The step and runs -/

/-- How the step performs operation words (log 1): the oldest word, decoded, is performed with the rest still waiting; with no
word waiting nothing changes (R218); the word `withFetchWord` places is the next one performed. -/
def Obligations.StepPerformsTheOldestWord : Prop :=
  (∀ (s : State) (w : Word) (rest : List Word) (i : Instr), s.input = w :: rest → decode w = .ok i →
    step s = exec i { s with input := rest }) ∧
  (∀ s : State, s.input = [] → step s = .next s) ∧
  (∀ (s : State) (i : Instr), i.wellFormed = true → step (s.withFetchWord 16 (encode i).toNat) = exec i s)

/-- R235: a step answers a next state exactly when the host has kept its duties, and otherwise it is refused by name. -/
def Obligations.StepCompletesIffDutiesKept : Prop :=
  ∀ s : State,
    (s.dutiesKept = true → ∃ t : State, step s = .next t) ∧
    (s.dutiesKept = false → step s = .refused .notUsable ∨ step s = .refused .reInit ∨ step s = .refused .reservedWord)

/-- The invariant holds at reset. -/
def Obligations.InvariantHoldsAtReset : Prop := State.reset.Inv

/-- Every step keeps the invariant (R26, R33, R34, R36 and T8, which are the spec's own inferences, and the canonical form of log
21). -/
def Obligations.InvariantKeptByEveryStep : Prop :=
  ∀ s t : State, s.Inv → step s = .next t → t.Inv

/-- R180 and R181 (the spec's own inferences): `k` STEPs lead from a position to the `k`-th after it, modulo the 341 × 262
positions of a frame; nothing but the position, `status` and the trace changes, and `status` in bit 7 only. -/
def Obligations.RunOfStepsReachesPosition : Prop :=
  ∀ (k : Nat) (s : State) (rest : List Word), s.life = .ready → s.scanline.toNat ≤ 261 → s.dot.toNat ≤ 340 →
    s.input = stepWords k rest →
    ∃ t : State, runsTo k s t ∧
      t.scanline.toNat = (s.scanline.toNat * 341 + s.dot.toNat + k) / 341 % 262 ∧
      t.dot.toNat = (s.scanline.toNat * 341 + s.dot.toNat + k) % 341 ∧
      t = { s with
        scanline := t.scanline, dot := t.dot, status := t.status, trace := t.trace, input := rest } ∧
      t.status &&& 0x7F#8 = s.status &&& 0x7F#8

/-- R180, R183, R184 (the spec's own inferences): a frame of STEPs from any position returns to it, with one FrameDone, 240 × 256
render hooks, and one request if `ctrl1` bit 7 is set and none if not. -/
def Obligations.FrameOfStepsReturnsWithItsEvents : Prop :=
  ∀ (s : State) (rest : List Word), s.life = .ready → s.scanline.toNat ≤ 261 → s.dot.toNat ≤ 340 →
    s.input = stepWords 89342 rest →
    ∃ (t : State) (new : List Record), runsTo 89342 s t ∧ t.scanline = s.scanline ∧ t.dot = s.dot ∧
      t.trace = new ++ s.trace ∧ new.length = 89342 ∧
      (eventsOf new).count .frameDone = 1 ∧
      (eventsOf new).countP Event.isRenderHook = 61440 ∧
      (eventsOf new).count .nmiRequest = if s.ctrl1.getLsbD 7 then 1 else 0

/-- R182 (the spec's own inference): without status reads, VBL is set from the STEP that enters (241, 0) for 13981 positions,
and the next STEP, entering (20, 0), clears it. -/
def Obligations.VblLastsFromLine241ToLine20 : Prop :=
  ∀ (k : Nat) (s : State) (rest : List Word), s.life = .ready → s.scanline = 240 → s.dot = 340 →
    1 ≤ k → k ≤ 13982 → s.input = stepWords k rest →
    ∃ t : State, runsTo k s t ∧ t.status.getLsbD 7 = decide (k ≤ 13981)

/-- R104: from the low phase, the pseudo-operation `setaddr A` leaves `vaddr` at A, `setscroll A` leaves `scroll` at A, and
`vwrite A, V` stores V at A and leaves `vaddr` one step further, each toggle low again. -/
def Obligations.PseudoOperationsDoWhatTheySay : Prop :=
  ∀ (s : State) (a : Word) (v : Byte) (rest : List Word), s.life = .ready → s.memWf = true →
    (s.wAddr = .low → s.input = assemble [.setaddr a] ++ rest →
      ∃ t : State, runsTo 2 s t ∧ t = { s with vaddr := a, input := rest, trace := t.trace }) ∧
    (s.wScroll = .low → s.input = assemble [.setscroll a] ++ rest →
      ∃ t : State, runsTo 2 s t ∧ t = { s with scroll := a, input := rest, trace := t.trace }) ∧
    (s.wAddr = .low → s.input = assemble [.vwrite a v] ++ rest →
      ∃ t : State, runsTo 3 s t ∧ t.mapRead a = v ∧ t.wAddr = .low ∧ t.input = rest ∧
        t.vaddr.toNat = (a.toNat + if s.ctrl1.getLsbD 2 then 32 else 1) % 65536 ∧
        ∀ l : Loc, l ≠ locate s.mirror a → t.readLoc l = s.readLoc l)

/-- R42, R72, R125: of all the state, only `life`, `ctrl1` bit 7, `status`, the position and the interface can ever show in
the output trace: two runs that differ in the rest (memories, mirror map, `vaddr`, `scroll`, toggles, `ctrl2`, the other bits of
`ctrl1`) give the same trace, and stop with the same refusal if they stop. -/
def Obligations.HiddenStateNeverShows : Prop :=
  ∀ (k : Nat) (s t : State), SeenAlike s t →
    (∀ s' : State, runsTo k s s' → ∃ t' : State, runsTo k t t' ∧ t'.trace = s'.trace) ∧
    (∀ r : Refusal, Host.Core.run Sys2Proof.core k s = .refused r → Host.Core.run Sys2Proof.core k t = .refused r)
end

