-- ==== Sys2Proof/Laws/State.lean ====
section
/-! SUPPORT. One lemma per field per named update of State, so that no later proof unfolds a record update. -/

namespace Sys2Proof.Machine

section
variable (s : State)

/-! ### emit: only the trace changes -/

@[simp] theorem State.emit_life (i : Instr) (r : Result) (e : List Event) : (s.emit i r e).life = s.life := rfl
@[simp] theorem State.emit_ctrl1 (i : Instr) (r : Result) (e : List Event) : (s.emit i r e).ctrl1 = s.ctrl1 := rfl
@[simp] theorem State.emit_ctrl2 (i : Instr) (r : Result) (e : List Event) : (s.emit i r e).ctrl2 = s.ctrl2 := rfl
@[simp] theorem State.emit_status (i : Instr) (r : Result) (e : List Event) : (s.emit i r e).status = s.status := rfl
@[simp] theorem State.emit_scroll (i : Instr) (r : Result) (e : List Event) : (s.emit i r e).scroll = s.scroll := rfl
@[simp] theorem State.emit_wScroll (i : Instr) (r : Result) (e : List Event) : (s.emit i r e).wScroll = s.wScroll := rfl
@[simp] theorem State.emit_vaddr (i : Instr) (r : Result) (e : List Event) : (s.emit i r e).vaddr = s.vaddr := rfl
@[simp] theorem State.emit_wAddr (i : Instr) (r : Result) (e : List Event) : (s.emit i r e).wAddr = s.wAddr := rfl
@[simp] theorem State.emit_scanline (i : Instr) (r : Result) (e : List Event) : (s.emit i r e).scanline = s.scanline := rfl
@[simp] theorem State.emit_dot (i : Instr) (r : Result) (e : List Event) : (s.emit i r e).dot = s.dot := rfl
@[simp] theorem State.emit_mirror (i : Instr) (r : Result) (e : List Event) : (s.emit i r e).mirror = s.mirror := rfl
@[simp] theorem State.emit_pat (i : Instr) (r : Result) (e : List Event) : (s.emit i r e).pat = s.pat := rfl
@[simp] theorem State.emit_nt (i : Instr) (r : Result) (e : List Event) : (s.emit i r e).nt = s.nt := rfl
@[simp] theorem State.emit_pal (i : Instr) (r : Result) (e : List Event) : (s.emit i r e).pal = s.pal := rfl
@[simp] theorem State.emit_input (i : Instr) (r : Result) (e : List Event) : (s.emit i r e).input = s.input := rfl
@[simp] theorem State.emit_allocOk (i : Instr) (r : Result) (e : List Event) : (s.emit i r e).allocOk = s.allocOk := rfl
@[simp] theorem State.emit_trace (i : Instr) (r : Result) (e : List Event) :
    (s.emit i r e).trace = ⟨i, r, e⟩ :: s.trace := rfl
@[simp] theorem State.emit_draws (i : Instr) (r : Result) (e : List Event) : (s.emit i r e).draws = s.draws := rfl
@[simp] theorem State.emit_readLoc (i : Instr) (r : Result) (e : List Event) (l : Loc) :
    (s.emit i r e).readLoc l = s.readLoc l := rfl
@[simp] theorem State.emit_memWf (i : Instr) (r : Result) (e : List Event) : (s.emit i r e).memWf = s.memWf := rfl

/-! ### setControl1 -/

@[simp] theorem State.setControl1_life (v : Byte) : (s.setControl1 v).life = s.life := rfl
@[simp] theorem State.setControl1_ctrl1 (v : Byte) : (s.setControl1 v).ctrl1 = v := rfl
@[simp] theorem State.setControl1_ctrl2 (v : Byte) : (s.setControl1 v).ctrl2 = s.ctrl2 := rfl
@[simp] theorem State.setControl1_status (v : Byte) : (s.setControl1 v).status = s.status := rfl
@[simp] theorem State.setControl1_scroll (v : Byte) : (s.setControl1 v).scroll = s.scroll := rfl
@[simp] theorem State.setControl1_wScroll (v : Byte) : (s.setControl1 v).wScroll = s.wScroll := rfl
@[simp] theorem State.setControl1_vaddr (v : Byte) : (s.setControl1 v).vaddr = s.vaddr := rfl
@[simp] theorem State.setControl1_wAddr (v : Byte) : (s.setControl1 v).wAddr = s.wAddr := rfl
@[simp] theorem State.setControl1_scanline (v : Byte) : (s.setControl1 v).scanline = s.scanline := rfl
@[simp] theorem State.setControl1_dot (v : Byte) : (s.setControl1 v).dot = s.dot := rfl
@[simp] theorem State.setControl1_mirror (v : Byte) : (s.setControl1 v).mirror = s.mirror := rfl
@[simp] theorem State.setControl1_pat (v : Byte) : (s.setControl1 v).pat = s.pat := rfl
@[simp] theorem State.setControl1_nt (v : Byte) : (s.setControl1 v).nt = s.nt := rfl
@[simp] theorem State.setControl1_pal (v : Byte) : (s.setControl1 v).pal = s.pal := rfl
@[simp] theorem State.setControl1_input (v : Byte) : (s.setControl1 v).input = s.input := rfl
@[simp] theorem State.setControl1_allocOk (v : Byte) : (s.setControl1 v).allocOk = s.allocOk := rfl
@[simp] theorem State.setControl1_trace (v : Byte) : (s.setControl1 v).trace = s.trace := rfl
@[simp] theorem State.setControl1_draws (v : Byte) : (s.setControl1 v).draws = s.draws := rfl

/-! ### setControl2 -/

@[simp] theorem State.setControl2_life (v : Byte) : (s.setControl2 v).life = s.life := rfl
@[simp] theorem State.setControl2_ctrl1 (v : Byte) : (s.setControl2 v).ctrl1 = s.ctrl1 := rfl
@[simp] theorem State.setControl2_ctrl2 (v : Byte) : (s.setControl2 v).ctrl2 = v := rfl
@[simp] theorem State.setControl2_status (v : Byte) : (s.setControl2 v).status = s.status := rfl
@[simp] theorem State.setControl2_scroll (v : Byte) : (s.setControl2 v).scroll = s.scroll := rfl
@[simp] theorem State.setControl2_wScroll (v : Byte) : (s.setControl2 v).wScroll = s.wScroll := rfl
@[simp] theorem State.setControl2_vaddr (v : Byte) : (s.setControl2 v).vaddr = s.vaddr := rfl
@[simp] theorem State.setControl2_wAddr (v : Byte) : (s.setControl2 v).wAddr = s.wAddr := rfl
@[simp] theorem State.setControl2_scanline (v : Byte) : (s.setControl2 v).scanline = s.scanline := rfl
@[simp] theorem State.setControl2_dot (v : Byte) : (s.setControl2 v).dot = s.dot := rfl
@[simp] theorem State.setControl2_mirror (v : Byte) : (s.setControl2 v).mirror = s.mirror := rfl
@[simp] theorem State.setControl2_pat (v : Byte) : (s.setControl2 v).pat = s.pat := rfl
@[simp] theorem State.setControl2_nt (v : Byte) : (s.setControl2 v).nt = s.nt := rfl
@[simp] theorem State.setControl2_pal (v : Byte) : (s.setControl2 v).pal = s.pal := rfl
@[simp] theorem State.setControl2_input (v : Byte) : (s.setControl2 v).input = s.input := rfl
@[simp] theorem State.setControl2_allocOk (v : Byte) : (s.setControl2 v).allocOk = s.allocOk := rfl
@[simp] theorem State.setControl2_trace (v : Byte) : (s.setControl2 v).trace = s.trace := rfl
@[simp] theorem State.setControl2_draws (v : Byte) : (s.setControl2 v).draws = s.draws := rfl

/-! ### writeLoc and mapWrite: only a memory changes -/

@[simp] theorem State.writeLoc_life (l : Loc) (v : Byte) : (s.writeLoc l v).life = s.life := by
  rcases l with ⟨_ | _ | _, _⟩ <;> rfl
@[simp] theorem State.mapWrite_life (a : Word) (v : Byte) : (s.mapWrite a v).life = s.life :=
  s.writeLoc_life _ v
@[simp] theorem State.writeLoc_ctrl1 (l : Loc) (v : Byte) : (s.writeLoc l v).ctrl1 = s.ctrl1 := by
  rcases l with ⟨_ | _ | _, _⟩ <;> rfl
@[simp] theorem State.mapWrite_ctrl1 (a : Word) (v : Byte) : (s.mapWrite a v).ctrl1 = s.ctrl1 :=
  s.writeLoc_ctrl1 _ v
@[simp] theorem State.writeLoc_ctrl2 (l : Loc) (v : Byte) : (s.writeLoc l v).ctrl2 = s.ctrl2 := by
  rcases l with ⟨_ | _ | _, _⟩ <;> rfl
@[simp] theorem State.mapWrite_ctrl2 (a : Word) (v : Byte) : (s.mapWrite a v).ctrl2 = s.ctrl2 :=
  s.writeLoc_ctrl2 _ v
@[simp] theorem State.writeLoc_status (l : Loc) (v : Byte) : (s.writeLoc l v).status = s.status := by
  rcases l with ⟨_ | _ | _, _⟩ <;> rfl
@[simp] theorem State.mapWrite_status (a : Word) (v : Byte) : (s.mapWrite a v).status = s.status :=
  s.writeLoc_status _ v
@[simp] theorem State.writeLoc_scroll (l : Loc) (v : Byte) : (s.writeLoc l v).scroll = s.scroll := by
  rcases l with ⟨_ | _ | _, _⟩ <;> rfl
@[simp] theorem State.mapWrite_scroll (a : Word) (v : Byte) : (s.mapWrite a v).scroll = s.scroll :=
  s.writeLoc_scroll _ v
@[simp] theorem State.writeLoc_wScroll (l : Loc) (v : Byte) : (s.writeLoc l v).wScroll = s.wScroll := by
  rcases l with ⟨_ | _ | _, _⟩ <;> rfl
@[simp] theorem State.mapWrite_wScroll (a : Word) (v : Byte) : (s.mapWrite a v).wScroll = s.wScroll :=
  s.writeLoc_wScroll _ v
@[simp] theorem State.writeLoc_vaddr (l : Loc) (v : Byte) : (s.writeLoc l v).vaddr = s.vaddr := by
  rcases l with ⟨_ | _ | _, _⟩ <;> rfl
@[simp] theorem State.mapWrite_vaddr (a : Word) (v : Byte) : (s.mapWrite a v).vaddr = s.vaddr :=
  s.writeLoc_vaddr _ v
@[simp] theorem State.writeLoc_wAddr (l : Loc) (v : Byte) : (s.writeLoc l v).wAddr = s.wAddr := by
  rcases l with ⟨_ | _ | _, _⟩ <;> rfl
@[simp] theorem State.mapWrite_wAddr (a : Word) (v : Byte) : (s.mapWrite a v).wAddr = s.wAddr :=
  s.writeLoc_wAddr _ v
@[simp] theorem State.writeLoc_scanline (l : Loc) (v : Byte) : (s.writeLoc l v).scanline = s.scanline := by
  rcases l with ⟨_ | _ | _, _⟩ <;> rfl
@[simp] theorem State.mapWrite_scanline (a : Word) (v : Byte) : (s.mapWrite a v).scanline = s.scanline :=
  s.writeLoc_scanline _ v
@[simp] theorem State.writeLoc_dot (l : Loc) (v : Byte) : (s.writeLoc l v).dot = s.dot := by
  rcases l with ⟨_ | _ | _, _⟩ <;> rfl
@[simp] theorem State.mapWrite_dot (a : Word) (v : Byte) : (s.mapWrite a v).dot = s.dot :=
  s.writeLoc_dot _ v
@[simp] theorem State.writeLoc_mirror (l : Loc) (v : Byte) : (s.writeLoc l v).mirror = s.mirror := by
  rcases l with ⟨_ | _ | _, _⟩ <;> rfl
@[simp] theorem State.mapWrite_mirror (a : Word) (v : Byte) : (s.mapWrite a v).mirror = s.mirror :=
  s.writeLoc_mirror _ v
@[simp] theorem State.writeLoc_input (l : Loc) (v : Byte) : (s.writeLoc l v).input = s.input := by
  rcases l with ⟨_ | _ | _, _⟩ <;> rfl
@[simp] theorem State.mapWrite_input (a : Word) (v : Byte) : (s.mapWrite a v).input = s.input :=
  s.writeLoc_input _ v
@[simp] theorem State.writeLoc_allocOk (l : Loc) (v : Byte) : (s.writeLoc l v).allocOk = s.allocOk := by
  rcases l with ⟨_ | _ | _, _⟩ <;> rfl
@[simp] theorem State.mapWrite_allocOk (a : Word) (v : Byte) : (s.mapWrite a v).allocOk = s.allocOk :=
  s.writeLoc_allocOk _ v
@[simp] theorem State.writeLoc_trace (l : Loc) (v : Byte) : (s.writeLoc l v).trace = s.trace := by
  rcases l with ⟨_ | _ | _, _⟩ <;> rfl
@[simp] theorem State.mapWrite_trace (a : Word) (v : Byte) : (s.mapWrite a v).trace = s.trace :=
  s.writeLoc_trace _ v
@[simp] theorem State.writeLoc_draws (l : Loc) (v : Byte) : (s.writeLoc l v).draws = s.draws := by
  rcases l with ⟨_ | _ | _, _⟩ <;> rfl
@[simp] theorem State.mapWrite_draws (a : Word) (v : Byte) : (s.mapWrite a v).draws = s.draws :=
  s.writeLoc_draws _ v

/-! ### initialised: the table of R44 -/

@[simp] theorem State.initialised_life (m : MirrorMap) : (s.initialised m).life = .ready := rfl
@[simp] theorem State.initialised_ctrl1 (m : MirrorMap) : (s.initialised m).ctrl1 = 0x00#8 := rfl
@[simp] theorem State.initialised_ctrl2 (m : MirrorMap) : (s.initialised m).ctrl2 = 0x00#8 := rfl
@[simp] theorem State.initialised_status (m : MirrorMap) : (s.initialised m).status = 0x00#8 := rfl
@[simp] theorem State.initialised_scroll (m : MirrorMap) : (s.initialised m).scroll = 0x0000#16 := rfl
@[simp] theorem State.initialised_wScroll (m : MirrorMap) : (s.initialised m).wScroll = .low := rfl
@[simp] theorem State.initialised_vaddr (m : MirrorMap) : (s.initialised m).vaddr = 0x0000#16 := rfl
@[simp] theorem State.initialised_wAddr (m : MirrorMap) : (s.initialised m).wAddr = .low := rfl
@[simp] theorem State.initialised_scanline (m : MirrorMap) : (s.initialised m).scanline = 0 := rfl
@[simp] theorem State.initialised_dot (m : MirrorMap) : (s.initialised m).dot = 0 := rfl
@[simp] theorem State.initialised_mirror (m : MirrorMap) : (s.initialised m).mirror = m := rfl
@[simp] theorem State.initialised_pat (m : MirrorMap) : (s.initialised m).pat = [] := rfl
@[simp] theorem State.initialised_nt (m : MirrorMap) : (s.initialised m).nt = [] := rfl
@[simp] theorem State.initialised_pal (m : MirrorMap) : (s.initialised m).pal = [] := rfl
@[simp] theorem State.initialised_input (m : MirrorMap) : (s.initialised m).input = s.input := rfl
@[simp] theorem State.initialised_allocOk (m : MirrorMap) : (s.initialised m).allocOk = s.allocOk := rfl
@[simp] theorem State.initialised_trace (m : MirrorMap) : (s.initialised m).trace = s.trace := rfl
@[simp] theorem State.initialised_draws (m : MirrorMap) : (s.initialised m).draws = s.draws := rfl

/-! ### unspecified: `life` and the interface stay -/

@[simp] theorem State.unspecified_life : s.unspecified.life = s.life := rfl
@[simp] theorem State.unspecified_input : s.unspecified.input = s.input := rfl
@[simp] theorem State.unspecified_allocOk : s.unspecified.allocOk = s.allocOk := rfl
@[simp] theorem State.unspecified_trace : s.unspecified.trace = s.trace := rfl
@[simp] theorem State.unspecified_draws : s.unspecified.draws = s.draws + 1 := rfl

/-! ### withFetchWord: only the input changes -/

@[simp] theorem State.withFetchWord_life (n w : Nat) : (s.withFetchWord n w).life = s.life := rfl
@[simp] theorem State.withFetchWord_ctrl1 (n w : Nat) : (s.withFetchWord n w).ctrl1 = s.ctrl1 := rfl
@[simp] theorem State.withFetchWord_ctrl2 (n w : Nat) : (s.withFetchWord n w).ctrl2 = s.ctrl2 := rfl
@[simp] theorem State.withFetchWord_status (n w : Nat) : (s.withFetchWord n w).status = s.status := rfl
@[simp] theorem State.withFetchWord_scroll (n w : Nat) : (s.withFetchWord n w).scroll = s.scroll := rfl
@[simp] theorem State.withFetchWord_wScroll (n w : Nat) : (s.withFetchWord n w).wScroll = s.wScroll := rfl
@[simp] theorem State.withFetchWord_vaddr (n w : Nat) : (s.withFetchWord n w).vaddr = s.vaddr := rfl
@[simp] theorem State.withFetchWord_wAddr (n w : Nat) : (s.withFetchWord n w).wAddr = s.wAddr := rfl
@[simp] theorem State.withFetchWord_scanline (n w : Nat) : (s.withFetchWord n w).scanline = s.scanline := rfl
@[simp] theorem State.withFetchWord_dot (n w : Nat) : (s.withFetchWord n w).dot = s.dot := rfl
@[simp] theorem State.withFetchWord_mirror (n w : Nat) : (s.withFetchWord n w).mirror = s.mirror := rfl
@[simp] theorem State.withFetchWord_pat (n w : Nat) : (s.withFetchWord n w).pat = s.pat := rfl
@[simp] theorem State.withFetchWord_nt (n w : Nat) : (s.withFetchWord n w).nt = s.nt := rfl
@[simp] theorem State.withFetchWord_pal (n w : Nat) : (s.withFetchWord n w).pal = s.pal := rfl
@[simp] theorem State.withFetchWord_input (n w : Nat) : (s.withFetchWord n w).input = tableWord n w :: s.input := rfl
@[simp] theorem State.withFetchWord_allocOk (n w : Nat) : (s.withFetchWord n w).allocOk = s.allocOk := rfl
@[simp] theorem State.withFetchWord_trace (n w : Nat) : (s.withFetchWord n w).trace = s.trace := rfl
@[simp] theorem State.withFetchWord_draws (n w : Nat) : (s.withFetchWord n w).draws = s.draws := rfl

end

end Sys2Proof.Machine
end

