-- ==== Sys2Proof/Laws/Bits.lean ====
section
/-! SUPPORT. The bit-level facts of the definitions: the fields of an operation word, the two-phase composition, the
vertical-blank bit, the timing counters, the address forms. -/

namespace Sys2Proof.Machine

/-! ### Operation words -/

/-- A packed word as a number. -/
theorem packWord_toNat (c : BitVec 4) (p : BitVec 3) (v : Byte) :
    (packWord c p v).toNat = c.toNat * 4096 + p.toNat * 256 + v.toNat := by
  unfold packWord
  simp only [BitVec.toNat_append, BitVec.toNat_ofNat]
  have := v.isLt
  have := p.isLt
  rw [← Nat.shiftLeft_add_eq_or_of_lt (by omega), ← Nat.shiftLeft_add_eq_or_of_lt (by omega),
    ← Nat.shiftLeft_add_eq_or_of_lt (by omega)]
  simp only [Nat.shiftLeft_eq]
  omega

theorem wordClass_eq (w : Word) : wordClass w = w.toNat / 4096 := by
  have := w.isLt
  simp only [wordClass, BitVec.extractLsb'_toNat, Nat.shiftRight_eq_div_pow]
  omega

theorem wordReserved_eq (w : Word) : wordReserved w = decide (w.toNat / 2048 % 2 = 1) := by
  simp only [wordReserved, BitVec.getLsbD, Nat.testBit_eq_decide_div_mod_eq]

theorem wordPort_eq (w : Word) : wordPort w = Fin.ofNat 8 (w.toNat / 256) := by
  apply Fin.ext
  simp only [wordPort, BitVec.extractLsb'_toNat, Nat.shiftRight_eq_div_pow, BitVec.val_toFin, Fin.ofNat]

theorem wordData_eq (w : Word) : wordData w = BitVec.ofNat 8 w.toNat := by
  apply BitVec.eq_of_toNat_eq
  simp [wordData, BitVec.extractLsb'_toNat]

/-! ### Two-phase composition -/

/-- In the low phase the byte becomes bits 7:0. -/
theorem compose_low (r : Word) (b : Byte) : compose r .low b = (r.extractLsb' 8 8 ++ b, .high) := by
  refine Prod.ext ?_ rfl
  change @Eq (BitVec (8 + 8)) (b.zeroExtend 16 ||| (r &&& 0xFF00#16)) _
  ext i hi
  rw [BitVec.getElem_append]
  split
  · simp only [BitVec.getElem_or, BitVec.getElem_and]
    interval_cases i <;> simp
  · simp only [BitVec.getElem_or, BitVec.getElem_and]
    interval_cases i <;> first | contradiction | simp

/-- In the high phase the byte becomes bits 15:8. -/
theorem compose_high (r : Word) (b : Byte) : compose r .high b = (b ++ r.extractLsb' 0 8, .low) := by
  refine Prod.ext ?_ rfl
  change @Eq (BitVec (8 + 8)) ((b.zeroExtend 16 <<< 8) ||| (r &&& 0x00FF#16)) _
  ext i hi
  rw [BitVec.getElem_append]
  split
  · simp only [BitVec.getElem_or, BitVec.getElem_and]
    interval_cases i <;> simp
  · simp only [BitVec.getElem_or, BitVec.getElem_and]
    interval_cases i <;> first | contradiction | simp

/-! ### Vertical blank -/

theorem vblSet_eq (x : Byte) : vblSet x = x.getLsbD 7 := by
  revert x
  unfold vblSet vblMask
  decide

theorem clearVbl_eq (x : Byte) : clearVbl x = x &&& 0x7F#8 := rfl

theorem setVbl_eq (x : Byte) : setVbl x = x ||| 0x80#8 := rfl

/-- Clearing a clear bit is no change. -/
theorem clearVbl_of_clear {x : Byte} (h : vblSet x = false) : clearVbl x = x := by
  revert x
  unfold vblSet clearVbl vblMask
  decide

/-! ### Timing counters -/

/-- A 9-bit counter reaches a number below its wrap exactly from the number before. -/
theorem counter_succ_toNat_eq {c : Counter} {n : Nat} (h : n < 511) :
    (c + 1).toNat = n + 1 ↔ c = BitVec.ofNat 9 n := by
  have := c.isLt
  simp only [← BitVec.toNat_inj, BitVec.toNat_add, BitVec.ofNat_eq_ofNat, BitVec.toNat_ofNat]
  omega

/-! ### Addresses -/

theorem normalize_toNat (a : Word) : (normalize a).toNat = a.toNat % 16384 := by
  simp only [normalize, BitVec.toNat_and, BitVec.toNat_ofNat]
  exact Nat.and_two_pow_sub_one_eq_mod a.toNat 14

theorem normalize_idem (a : Word) : normalize (normalize a) = normalize a := by
  apply BitVec.eq_of_toNat_eq
  simp [normalize_toNat]

theorem slot_normalize (a : Word) : slot (normalize a) = Fin.ofNat 4 (a.toNat % 16384 / 1024) := by
  apply Fin.ext
  simp only [slot, BitVec.extractLsb'_toNat, Nat.shiftRight_eq_div_pow, BitVec.val_toFin, Fin.ofNat, normalize_toNat]

theorem paletteIndex_normalize (a : Word) : paletteIndex (normalize a) = a.toNat % 32 := by
  simp only [paletteIndex, BitVec.toNat_and, normalize_toNat, BitVec.toNat_ofNat]
  rw [show 31 % 2 ^ 16 = 2 ^ 5 - 1 from rfl, Nat.and_two_pow_sub_one_eq_mod]
  omega

/-- The physical byte an address selects, by number. -/
theorem locate_eq (m : MirrorMap) (a : Word) :
    locate m a =
      if a.toNat % 16384 < 0x2000 then ⟨.pat, a.toNat % 16384⟩
      else if a.toNat % 16384 < 0x3F00 then ⟨.nt, (m.region (Fin.ofNat 4 (a.toNat % 16384 / 1024))).base⟩
      else ⟨.pal, a.toNat % 32⟩ := by
  simp only [locate, BitVec.lt_def, normalize_toNat, slot_normalize, paletteIndex_normalize, BitVec.toNat_ofNat]

end Sys2Proof.Machine
end

