-- ==== Sys2Proof/Laws/Memory.lean ====
section
/-! SUPPORT. The laws of one memory: every operation keeps the canonical form; a read after a write; and what that gives for
physical bytes. -/

namespace Sys2Proof.Machine

/-! ### The canonical form -/

theorem Memory.wfFrom_cons {size lo k : Nat} {v : Byte} {rest : Memory} :
    Memory.wfFrom size lo ((k, v) :: rest) = true ↔
      lo ≤ k ∧ k < size ∧ v ≠ Memory.unlisted ∧ Memory.wfFrom size (k + 1) rest = true := by
  simp [Memory.wfFrom, and_assoc]

theorem Memory.wfFrom_mono {size lo lo' : Nat} {m : Memory} (h : Memory.wfFrom size lo m = true) (hl : lo' ≤ lo) :
    Memory.wfFrom size lo' m = true := by
  cases m with
  | nil => rfl
  | cons c rest =>
    obtain ⟨k, v⟩ := c
    rw [Memory.wfFrom_cons] at h ⊢
    exact ⟨hl.trans h.1, h.2⟩

theorem Memory.entry_wfFrom {size lo a : Nat} {v : Byte} {rest : Memory} (hlo : lo ≤ a) (ha : a < size)
    (h : Memory.wfFrom size (a + 1) rest = true) : Memory.wfFrom size lo (Memory.entry a v rest) = true := by
  unfold Memory.entry
  split
  · exact Memory.wfFrom_mono h (by omega)
  · exact Memory.wfFrom_cons.2 ⟨hlo, ha, ‹_›, h⟩

theorem Memory.write_wfFrom {size : Nat} (m : Memory) {lo a : Nat} {v : Byte} (h : Memory.wfFrom size lo m = true)
    (hlo : lo ≤ a) (ha : a < size) : Memory.wfFrom size lo (m.write a v) = true := by
  induction m generalizing lo with
  | nil => exact Memory.entry_wfFrom hlo ha rfl
  | cons c rest ih =>
    obtain ⟨k, b⟩ := c
    rw [Memory.wfFrom_cons] at h
    obtain ⟨h1, h2, h3, h4⟩ := h
    simp only [Memory.write]
    split
    · exact Memory.entry_wfFrom hlo ha (Memory.wfFrom_cons.2 ⟨by omega, h2, h3, h4⟩)
    · split
      · subst a
        exact Memory.entry_wfFrom hlo ha h4
      · exact Memory.wfFrom_cons.2 ⟨h1, h2, h3, ih h4 (by omega)⟩

/-- A write keeps the canonical form. -/
theorem Memory.write_wf {size : Nat} {m : Memory} {a : Nat} (v : Byte) (h : m.wf size = true) (ha : a < size) :
    (m.write a v).wf size = true :=
  Memory.write_wfFrom m h (Nat.zero_le a) ha

/-- The memory a list of cells stands for is in canonical form. -/
theorem Memory.ofCells_wf (size : Nat) (cells : List Host.Cell) : (Memory.ofCells size cells).wf size = true := by
  suffices ∀ m : Memory, m.wf size = true →
      (cells.foldl (fun m c => if c.1 < size then Memory.write m c.1 c.2 else m) m).wf size = true from this [] rfl
  induction cells with
  | nil => exact fun m h => h
  | cons c rest ih =>
    intro m h
    refine ih _ ?_
    dsimp only
    split
    · exact Memory.write_wf _ h ‹_›
    · exact h

/-! ### Read after write -/

@[simp] theorem Memory.read_nil (a : Nat) : Memory.read [] a = Memory.unlisted := rfl

theorem Memory.read_below {size lo a : Nat} {m : Memory} (h : Memory.wfFrom size lo m = true) (ha : a < lo) :
    m.read a = Memory.unlisted := by
  cases m with
  | nil => rfl
  | cons c rest =>
    obtain ⟨k, v⟩ := c
    rw [Memory.wfFrom_cons] at h
    simp [Memory.read, show a < k by omega]

theorem Memory.read_entry {size a b : Nat} {v : Byte} {rest : Memory}
    (h : Memory.wfFrom size (a + 1) rest = true) :
    (Memory.entry a v rest).read b = if b = a then v else rest.read b := by
  unfold Memory.entry
  split
  · split
    · subst b v
      exact Memory.read_below h (by omega)
    · rfl
  · simp only [Memory.read]
    split
    · rw [if_neg (by omega), Memory.read_below h (by omega)]
    · rfl

theorem Memory.read_write_from {size : Nat} (m : Memory) {lo a b : Nat} {v : Byte}
    (h : Memory.wfFrom size lo m = true) : (m.write a v).read b = if b = a then v else m.read b := by
  induction m generalizing lo with
  | nil => exact Memory.read_entry (size := size) rfl
  | cons c rest ih =>
    obtain ⟨k, w⟩ := c
    rw [Memory.wfFrom_cons] at h
    obtain ⟨_, h2, h3, h4⟩ := h
    simp only [Memory.write]
    split
    · exact Memory.read_entry (Memory.wfFrom_cons.2 ⟨by omega, h2, h3, h4⟩)
    · split
      · subst a
        rw [Memory.read_entry h4]
        split
        · rfl
        · simp only [Memory.read]
          split
          · exact Memory.read_below h4 (by omega)
          · rfl
      · simp only [Memory.read, ih h4]
        split_ifs <;> first | rfl | omega

/-- What a canonical memory reads as after a write. -/
theorem Memory.read_write {size : Nat} {m : Memory} (h : m.wf size = true) (a b : Nat) (v : Byte) :
    (m.write a v).read b = if b = a then v else m.read b :=
  Memory.read_write_from m h

/-! ### Physical bytes -/

theorem State.memWf_iff {s : State} :
    s.memWf = true ↔ s.pat.wf patSize = true ∧ s.nt.wf ntSize = true ∧ s.pal.wf palSize = true := by
  simp [State.memWf, and_assoc]

/-- The index of a located byte lies inside its memory. -/
theorem locate_index_lt (m : MirrorMap) (a : Word) : (locate m a).index < (locate m a).store.size := by
  unfold locate
  simp only
  split
  · rename_i h
    have : normalize a < 0x2000#16 := h
    simp only [Store.size, patSize]
    bv_omega
  · split
    · cases m.region (slot (normalize a)) <;> decide
    · simp only [paletteIndex, Store.size, palSize, BitVec.toNat_and, BitVec.toNat_ofNat]
      exact lt_of_le_of_lt Nat.and_le_right (by decide)

/-- A write of a byte inside its memory keeps the canonical form. -/
theorem State.writeLoc_memWf {s : State} {l : Loc} (v : Byte) (h : s.memWf = true) (hl : l.index < l.store.size) :
    (s.writeLoc l v).memWf = true := by
  rw [State.memWf_iff] at h
  obtain ⟨h1, h2, h3⟩ := h
  obtain ⟨st, ix⟩ := l
  cases st with
  | pat => exact State.memWf_iff.2 ⟨Memory.write_wf v h1 hl, h2, h3⟩
  | nt => exact State.memWf_iff.2 ⟨h1, Memory.write_wf v h2 hl, h3⟩
  | pal => exact State.memWf_iff.2 ⟨h1, h2, Memory.write_wf v h3 hl⟩

/-- MapWrite keeps the canonical form. -/
theorem State.mapWrite_memWf {s : State} (a : Word) (v : Byte) (h : s.memWf = true) : (s.mapWrite a v).memWf = true :=
  State.writeLoc_memWf v h (locate_index_lt s.mirror a)

/-- What a physical byte reads as after a write of one. -/
theorem State.readLoc_writeLoc {s : State} (h : s.memWf = true) (l l' : Loc) (v : Byte) :
    (s.writeLoc l v).readLoc l' = if l' = l then v else s.readLoc l' := by
  rw [State.memWf_iff] at h
  obtain ⟨h1, h2, h3⟩ := h
  obtain ⟨st, ix⟩ := l
  obtain ⟨st', ix'⟩ := l'
  cases st <;> cases st' <;>
    simp [State.writeLoc, State.readLoc, Memory.read_write h1, Memory.read_write h2, Memory.read_write h3]

/-- What a failed INIT leaves in the memories is in canonical form. -/
theorem State.unspecified_memWf (s : State) : s.unspecified.memWf = true :=
  State.memWf_iff.2 ⟨Memory.ofCells_wf _ _, Memory.ofCells_wf _ _, Memory.ofCells_wf _ _⟩

end Sys2Proof.Machine
end

