-- ==== Sys2Proof/Laws/Ops.lean ====
section
/-! SUPPORT. What each shared operation can do, said once: the two gates, the completion, the parts of STEP, INIT, and the step
itself. Proofs about `exec` and `step` cite these. -/

namespace Sys2Proof.Machine

/-! ### Gates and completion -/

/-- Past the gate, the operation has its outcome. -/
theorem whenReady_ready {s : State} (h : s.life = .ready) (o : Outcome) : whenReady s o = o := by
  simp [whenReady, h]

/-- The gate refuses in any other life. -/
theorem whenReady_refused {s : State} (h : s.life ≠ .ready) (o : Outcome) : whenReady s o = .refused .notUsable := by
  unfold whenReady
  cases hl : s.life <;> simp_all

theorem whenUninit_uninit {s : State} (h : s.life = .uninit) (o : Outcome) : whenUninit s o = o := by
  simp [whenUninit, h]

theorem whenUninit_refused {s : State} (h : s.life ≠ .uninit) (o : Outcome) : whenUninit s o = .refused .reInit := by
  unfold whenUninit
  cases hl : s.life <;> simp_all

/-- If the gated completion answers a next state, the instance is ready and that state is the completed one. -/
theorem whenReady_complete_next {s t u : State} {i : Instr} {r : Result} {e : List Event}
    (h : whenReady s (complete i r e u) = .next t) : s.life = .ready ∧ t = u.emit i r e := by
  by_cases hl : s.life = .ready
  · rw [whenReady_ready hl, complete] at h
    exact ⟨hl, (Host.Outcome.next.inj h).symm⟩
  · rw [whenReady_refused hl] at h
    cases h

/-! ### STEP -/

/-- Everything the boundary actions and the counters can do. -/
theorem advanceDot_cases (s : State) :
    (s.dot ≠ 340 ∧ advanceDot s = ({ s with dot := s.dot + 1 }, [])) ∨
    (s.dot = 340 ∧ s.scanline = 19 ∧
      advanceDot s = ({ s with dot := 0, scanline := 20, status := clearVbl s.status }, [])) ∨
    (s.dot = 340 ∧ s.scanline = 240 ∧
      advanceDot s = ({ s with dot := 0, scanline := 241, status := setVbl s.status },
        if vblankNmiEnabled s.ctrl1 then [.nmiRequest] else [])) ∨
    (s.dot = 340 ∧ s.scanline = 261 ∧ advanceDot s = ({ s with dot := 0, scanline := 0 }, [.frameDone])) ∨
    (s.dot = 340 ∧ s.scanline ≠ 19 ∧ s.scanline ≠ 240 ∧ s.scanline ≠ 261 ∧
      advanceDot s = ({ s with dot := 0, scanline := s.scanline + 1 }, [])) := by
  have hd : (s.dot + 1).toNat = dotsPerLine ↔ s.dot = 340 := counter_succ_toNat_eq (by decide)
  have h1 : (s.scanline + 1).toNat = vblClearLine ↔ s.scanline = 19 := counter_succ_toNat_eq (by decide)
  have h2 : (s.scanline + 1).toNat = vblSetLine ↔ s.scanline = 240 := counter_succ_toNat_eq (by decide)
  have h3 : (s.scanline + 1).toNat = linesPerFrame ↔ s.scanline = 261 := counter_succ_toNat_eq (by decide)
  simp only [advanceDot, enterLine, hd, h1, h2, h3]
  by_cases c : s.dot = 340
  · rw [if_pos c]
    by_cases c1 : s.scanline = 19
    · exact .inr (.inl ⟨c, c1, by rw [if_pos c1, c1]; rfl⟩)
    · by_cases c2 : s.scanline = 240
      · exact .inr (.inr (.inl ⟨c, c2, by rw [if_neg c1, if_pos c2, c2]; rfl⟩))
      · by_cases c3 : s.scanline = 261
        · exact .inr (.inr (.inr (.inl ⟨c, c3, by rw [if_neg c1, if_neg c2, if_pos c3]⟩)))
        · exact .inr (.inr (.inr (.inr ⟨c, c1, c2, c3, by rw [if_neg c1, if_neg c2, if_neg c3]⟩)))
  · exact .inl ⟨c, if_neg c⟩

/-- The counters and the boundary actions write the position and `status` only. -/
theorem advanceDot_frame (s : State) :
    (advanceDot s).1 =
      { s with
        scanline := (advanceDot s).1.scanline
        dot := (advanceDot s).1.dot
        status := (advanceDot s).1.status } := by
  rcases advanceDot_cases s with ⟨_, e⟩ | ⟨_, _, e⟩ | ⟨_, _, e⟩ | ⟨_, _, e⟩ | ⟨_, _, _, _, e⟩ <;> rw [e]

/-- At the last dot of a line the hook is not called. -/
theorem hookEvents_last_dot {s : State} (h : s.dot = 340) : hookEvents s = [] := by
  simp [hookEvents, visDots, h]

/-! ### The step -/

theorem step_idle {s : State} (h : s.input = []) : step s = .next s := by
  simp [step, h]

theorem step_of_decode {s : State} {w : Word} {rest : List Word} {i : Instr} (h : s.input = w :: rest)
    (hw : decode w = .ok i) : step s = exec i { s with input := rest } := by
  simp [step, h, hw]

theorem step_of_invalid {s : State} {w : Word} {rest : List Word} {e : Invalid} (h : s.input = w :: rest)
    (hw : decode w = .error e) : step s = .refused .reservedWord := by
  simp [step, h, hw]

/-- Everything a step that answers a next state can have done. -/
theorem step_next_cases {s t : State} (h : step s = .next t) :
    (s.input = [] ∧ t = s) ∨
    (∃ w rest i, s.input = w :: rest ∧ decode w = .ok i ∧ exec i { s with input := rest } = .next t) := by
  cases hin : s.input with
  | nil => rw [step_idle hin] at h; exact .inl ⟨rfl, (Host.Outcome.next.inj h).symm⟩
  | cons w rest =>
    cases hw : decode w with
    | error e => rw [step_of_invalid hin hw] at h; cases h
    | ok i => rw [step_of_decode hin hw] at h; exact .inr ⟨w, rest, i, rfl, hw, h⟩

/-! ### exec -/

/-- The state, result and events an operation that is not INIT completes with, when the instance is ready. -/
def effectOf (s : State) : Instr → State × Result × List Event
  | .read0 => (s, .byte 0x00#8, [.diag .readInvalidPort 0])
  | .read1 => (s, .byte 0x00#8, [.diag .readInvalidPort 1])
  | .read2 => (if vblSet s.status then { s with status := clearVbl s.status } else s, .byte s.status, [])
  | .read3 => (s, .byte 0x00#8, [.diag .readInvalidPort 3])
  | .read4 => (s, .byte 0x00#8, [.diag .readInvalidPort 4])
  | .read5 => (s, .byte 0x00#8, [.diag .readInvalidPort 5])
  | .read6 => (s, .byte 0x00#8, [.diag .readInvalidPort 6])
  | .read7 => (s, .byte 0x00#8, [.diag .readDataUnimplemented 7])
  | .write0 v => (s.setControl1 v, .nothing, [])
  | .write1 v => (s.setControl2 v, .nothing, [])
  | .write2 _ => (s, .nothing, [.diag .writeUnimplemented 2])
  | .write3 _ => (s, .nothing, [.diag .writeUnimplemented 3])
  | .write4 _ => (s, .nothing, [.diag .writeUnimplemented 4])
  | .write5 v =>
    ({ s with scroll := (compose s.scroll s.wScroll v).1, wScroll := (compose s.scroll s.wScroll v).2 }, .nothing, [])
  | .write6 v =>
    ({ s with vaddr := (compose s.vaddr s.wAddr v).1, wAddr := (compose s.vaddr s.wAddr v).2 }, .nothing, [])
  | .write7 v => ({ s.mapWrite s.vaddr v with vaddr := postIncrement s.vaddr s.ctrl1 }, .nothing, [])
  | .step => ((advanceDot s).1, .nothing, hookEvents s ++ (advanceDot s).2)
  | .init _ => (s, .nothing, [])
  | .debugRead _ => (s, .byte 0xFF#8, [])

/-! What no operation but INIT touches: `life`, the mirror map and the interface. -/

@[simp] theorem advanceDot_life (s : State) : (advanceDot s).1.life = s.life := by
  rcases advanceDot_cases s with ⟨_, e⟩ | ⟨_, _, e⟩ | ⟨_, _, e⟩ | ⟨_, _, e⟩ | ⟨_, _, _, _, e⟩ <;> rw [e]

@[simp] theorem effectOf_life (s : State) (i : Instr) : (effectOf s i).1.life = s.life := by
  cases i <;> simp only [effectOf, State.setControl1_life, State.setControl2_life, State.mapWrite_life, advanceDot_life]
  split <;> rfl

@[simp] theorem advanceDot_mirror (s : State) : (advanceDot s).1.mirror = s.mirror := by
  rcases advanceDot_cases s with ⟨_, e⟩ | ⟨_, _, e⟩ | ⟨_, _, e⟩ | ⟨_, _, e⟩ | ⟨_, _, _, _, e⟩ <;> rw [e]

@[simp] theorem effectOf_mirror (s : State) (i : Instr) : (effectOf s i).1.mirror = s.mirror := by
  cases i <;> simp only [effectOf, State.setControl1_mirror, State.setControl2_mirror, State.mapWrite_mirror, advanceDot_mirror]
  split <;> rfl

@[simp] theorem advanceDot_input (s : State) : (advanceDot s).1.input = s.input := by
  rcases advanceDot_cases s with ⟨_, e⟩ | ⟨_, _, e⟩ | ⟨_, _, e⟩ | ⟨_, _, e⟩ | ⟨_, _, _, _, e⟩ <;> rw [e]

@[simp] theorem effectOf_input (s : State) (i : Instr) : (effectOf s i).1.input = s.input := by
  cases i <;> simp only [effectOf, State.setControl1_input, State.setControl2_input, State.mapWrite_input, advanceDot_input]
  split <;> rfl

@[simp] theorem advanceDot_allocOk (s : State) : (advanceDot s).1.allocOk = s.allocOk := by
  rcases advanceDot_cases s with ⟨_, e⟩ | ⟨_, _, e⟩ | ⟨_, _, e⟩ | ⟨_, _, e⟩ | ⟨_, _, _, _, e⟩ <;> rw [e]

@[simp] theorem effectOf_allocOk (s : State) (i : Instr) : (effectOf s i).1.allocOk = s.allocOk := by
  cases i <;> simp only [effectOf, State.setControl1_allocOk, State.setControl2_allocOk, State.mapWrite_allocOk, advanceDot_allocOk]
  split <;> rfl

@[simp] theorem advanceDot_trace (s : State) : (advanceDot s).1.trace = s.trace := by
  rcases advanceDot_cases s with ⟨_, e⟩ | ⟨_, _, e⟩ | ⟨_, _, e⟩ | ⟨_, _, e⟩ | ⟨_, _, _, _, e⟩ <;> rw [e]

@[simp] theorem effectOf_trace (s : State) (i : Instr) : (effectOf s i).1.trace = s.trace := by
  cases i <;> simp only [effectOf, State.setControl1_trace, State.setControl2_trace, State.mapWrite_trace, advanceDot_trace]
  split <;> rfl

@[simp] theorem advanceDot_draws (s : State) : (advanceDot s).1.draws = s.draws := by
  rcases advanceDot_cases s with ⟨_, e⟩ | ⟨_, _, e⟩ | ⟨_, _, e⟩ | ⟨_, _, e⟩ | ⟨_, _, _, _, e⟩ <;> rw [e]

@[simp] theorem effectOf_draws (s : State) (i : Instr) : (effectOf s i).1.draws = s.draws := by
  cases i <;> simp only [effectOf, State.setControl1_draws, State.setControl2_draws, State.mapWrite_draws, advanceDot_draws]
  split <;> rfl

/-- Every operation but INIT is the gated completion of its effect. -/
theorem exec_eq_effect {i : Instr} (hi : isInit i = false) (s : State) :
    exec i s = whenReady s (complete i (effectOf s i).2.1 (effectOf s i).2.2 (effectOf s i).1) := by
  cases i <;> first | rfl | cases hi

/-- If an operation other than INIT answers a next state, the instance was ready and that state is its effect, recorded. -/
theorem exec_next {i : Instr} {s t : State} (hi : isInit i = false) (h : exec i s = .next t) :
    s.life = .ready ∧ t = (effectOf s i).1.emit i (effectOf s i).2.1 (effectOf s i).2.2 :=
  whenReady_complete_next (exec_eq_effect hi s ▸ h)

/-- Everything an INIT that answers a next state can have done. -/
theorem execInit_next {m : MirrorType} {s t : State} (h : exec (.init m) s = .next t) :
    s.life = .uninit ∧
    ((∃ map, mirrorMapOf m = some map ∧ s.allocOk = true ∧ t = (s.initialised map).emit (.init m) (.status 0) []) ∨
     ((mirrorMapOf m = none ∨ s.allocOk = false) ∧
      t = { s.unspecified with life := .failed }.emit (.init m) (.status Config.initFailCode) [])) := by
  have h : execInit m s = .next t := h
  unfold execInit at h
  by_cases hl : s.life = .uninit
  · rw [whenUninit_uninit hl] at h
    refine ⟨hl, ?_⟩
    cases hm : mirrorMapOf m with
    | none =>
      simp only [hm, initFails, complete] at h
      exact .inr ⟨.inl rfl, (Host.Outcome.next.inj h).symm⟩
    | some map =>
      cases ha : s.allocOk with
      | true =>
        simp only [hm, ha, if_true, complete] at h
        exact .inl ⟨map, rfl, rfl, (Host.Outcome.next.inj h).symm⟩
      | false =>
        simp only [hm, ha, Bool.false_eq_true, if_false, initFails, complete] at h
        exact .inr ⟨.inr rfl, (Host.Outcome.next.inj h).symm⟩
  · rw [whenUninit_refused hl] at h
    cases h

/-- The modes that fail (`44_init_debug.md` R190). -/
theorem mirrorMapOf_eq_none {m : MirrorType} : mirrorMapOf m = none ↔ m ≠ .horizontal ∧ m ≠ .vertical := by
  cases m <;> simp [mirrorMapOf]

/-! ### Runs -/

/-- One step, then a run. -/
theorem runsTo_succ {k : Nat} {s t u : State} (h : step s = .next t) (h2 : runsTo k t u) : runsTo (k + 1) s u := by
  have h : core.step s = .next t := h
  simp only [runsTo, Host.Core.run] at *
  rw [h]
  exact h2

/-- A run of no step. -/
theorem runsTo_zero (s : State) : runsTo 0 s s := rfl

/-- A run, then one step. -/
theorem runsTo_snoc {k : Nat} {s t u : State} (h : runsTo k s t) (h2 : step t = .next u) : runsTo (k + 1) s u := by
  induction k generalizing s with
  | zero =>
    cases h
    exact runsTo_succ h2 (runsTo_zero u)
  | succ k ih =>
    simp only [runsTo, Host.Core.run] at h
    split at h
    · exact runsTo_succ ‹_› (ih h)
    · cases h
    · cases h

end Sys2Proof.Machine
end

