-- ==== Sys2Proof/Laws/PerInstr.lean ====
section
/-! SUPPORT. Statements about every operation as syntax, one lemma per constructor. -/

namespace Sys2Proof.Laws.EncodedRow

/-- The word of an operation belongs to the operation's row of the opcode table (`30_encoding.md` R99). -/
def Statement (i : Instr) : Prop := (rowOf i).covers (encode i) = true

/-- The mask of a row with a data byte drops the low byte of a word and keeps the high one. -/
theorem append_and_mask (h v : BitVec 8) : (h ++ v) &&& 0xFF00#16 = h ++ 0#8 := by
  ext i hi
  simp only [BitVec.getElem_and, BitVec.getElem_append]
  interval_cases i <;> simp

theorem packWord_and_mask (c : BitVec 4) (p : BitVec 3) (v : Byte) : packWord c p v &&& 0xFF00#16 = packWord c p 0 :=
  append_and_mask (c ++ 0#1 ++ p) v

theorem read0 : Statement .read0 := rfl

theorem read1 : Statement .read1 := rfl

theorem read2 : Statement .read2 := rfl

theorem read3 : Statement .read3 := rfl

theorem read4 : Statement .read4 := rfl

theorem read5 : Statement .read5 := rfl

theorem read6 : Statement .read6 := rfl

theorem read7 : Statement .read7 := rfl

theorem write0 (v : Byte) : Statement (.write0 v) :=
  beq_iff_eq.2 (packWord_and_mask 1 0 v)

theorem write1 (v : Byte) : Statement (.write1 v) :=
  beq_iff_eq.2 (packWord_and_mask 1 1 v)

theorem write2 (v : Byte) : Statement (.write2 v) :=
  beq_iff_eq.2 (packWord_and_mask 1 2 v)

theorem write3 (v : Byte) : Statement (.write3 v) :=
  beq_iff_eq.2 (packWord_and_mask 1 3 v)

theorem write4 (v : Byte) : Statement (.write4 v) :=
  beq_iff_eq.2 (packWord_and_mask 1 4 v)

theorem write5 (v : Byte) : Statement (.write5 v) :=
  beq_iff_eq.2 (packWord_and_mask 1 5 v)

theorem write6 (v : Byte) : Statement (.write6 v) :=
  beq_iff_eq.2 (packWord_and_mask 1 6 v)

theorem write7 (v : Byte) : Statement (.write7 v) :=
  beq_iff_eq.2 (packWord_and_mask 1 7 v)

theorem step : Statement .step := rfl

theorem init (m : MirrorType) : Statement (.init m) :=
  beq_iff_eq.2 (packWord_and_mask 3 0 m.code)

theorem debugRead (p : Port) : Statement (.debugRead p) := by
  revert p
  unfold Statement
  decide

end Sys2Proof.Laws.EncodedRow
end

