-- ==== Sys2Proof/Tests/Slice0.lean ====
section
/-! SUPPORT. Tests of the model against `95_test_vectors.md` (each test names its vector), the WellFormed smoke tests, the
decoding of words written out from `30_encoding.md`, and the witnesses of the obligations' hypotheses. -/

namespace Sys2Proof.Machine.Tests

/-! ### Helpers -/

/-- The next state of an outcome. -/
def nextOf : Outcome → Option State
  | .next s => some s
  | .fault _ => none
  | .refused _ => none

/-- The refusal of an outcome. -/
def refusalOf : Outcome → Option Refusal
  | .next _ => none
  | .fault _ => none
  | .refused r => some r

/-- One step on an operation word. -/
def issue (w : Word) (s : State) : Outcome := step { s with input := [w] }

/-- A new instance (its registers here are those of reset: no operation but INIT reads them). -/
def fresh : State := { State.reset with life := .uninit }

/-- An instance whose INIT failed. -/
def failed : State := { State.reset with life := .failed }

/-- A ready instance with VBL set. -/
def vblOn : State := { State.reset with status := 0x80#8 }

/-- A ready instance at a timing position. -/
def posAt (sl d : Counter) (status ctrl1 : Byte) : State :=
  { State.reset with scanline := sl, dot := d, status := status, ctrl1 := ctrl1 }

/-- A ready instance with a VRAM address and a `ctrl1`. -/
def addrAt (a : Word) (ctrl1 : Byte) : State := { State.reset with vaddr := a, ctrl1 := ctrl1 }

/-- The next state's memory byte and `vaddr`. -/
def storeOf (l : Loc) (o : Outcome) : Option (Byte × Word) := (nextOf o).map fun t => (t.readLoc l, t.vaddr)

/-- The next state's position, `status` and newest events. -/
def tickOf (o : Outcome) : Option (Counter × Counter × Byte × List Event) :=
  (nextOf o).map fun t => (t.scanline, t.dot, t.status, eventsOf (t.trace.take 1))

/-! ### WellFormed smoke: the one check, on ill-formed terms (R96: 0x00, 0x01, 0x02 are no unknown codes) -/

theorem test_wellFormed_refuses_unknown_0 : (Instr.init (.unknown 0x00#8)).wellFormed = false := by decide

theorem test_wellFormed_refuses_unknown_1 : (Instr.init (.unknown 0x01#8)).wellFormed = false := by decide

theorem test_wellFormed_refuses_unknown_2 : (Instr.init (.unknown 0x02#8)).wellFormed = false := by decide

theorem test_wellFormed_takes_unknown_3 : (Instr.init (.unknown 0x03#8)).wellFormed = true := by decide

/-! ### Decoding: words written out bit by bit as `cls`, `z`, `p`, `d` (R91, R93 to R96) -/

theorem test_decode_read_0_to_3 :
    decode 0b0000_0_000_00000000#16 = .ok .read0 ∧ decode 0b0000_0_001_00000000#16 = .ok .read1 ∧
    decode 0b0000_0_010_00000000#16 = .ok .read2 ∧ decode 0b0000_0_011_00000000#16 = .ok .read3 :=
  ⟨rfl, rfl, rfl, rfl⟩

theorem test_decode_read_4_to_7 :
    decode 0b0000_0_100_00000000#16 = .ok .read4 ∧ decode 0b0000_0_101_00000000#16 = .ok .read5 ∧
    decode 0b0000_0_110_00000000#16 = .ok .read6 ∧ decode 0b0000_0_111_00000000#16 = .ok .read7 :=
  ⟨rfl, rfl, rfl, rfl⟩

theorem test_decode_write_0_to_3 :
    decode 0b0001_0_000_00000000#16 = .ok (.write0 0x00#8) ∧ decode 0b0001_0_001_00011110#16 = .ok (.write1 0x1E#8) ∧
    decode 0b0001_0_010_11111111#16 = .ok (.write2 0xFF#8) ∧ decode 0b0001_0_011_00010000#16 = .ok (.write3 0x10#8) :=
  ⟨rfl, rfl, rfl, rfl⟩

theorem test_decode_write_4_to_7 :
    decode 0b0001_0_100_11111111#16 = .ok (.write4 0xFF#8) ∧ decode 0b0001_0_101_00010010#16 = .ok (.write5 0x12#8) ∧
    decode 0b0001_0_110_10000000#16 = .ok (.write6 0x80#8) ∧ decode 0b0001_0_111_11111111#16 = .ok (.write7 0xFF#8) :=
  ⟨rfl, rfl, rfl, rfl⟩

theorem test_decode_step : decode 0b0010_0_000_00000000#16 = .ok .step := rfl

theorem test_decode_init :
    decode 0b0011_0_000_00000000#16 = .ok (.init .horizontal) ∧ decode 0b0011_0_000_00000001#16 = .ok (.init .vertical) ∧
    decode 0b0011_0_000_00000010#16 = .ok (.init .cartridgeVram) ∧
    decode 0b0011_0_000_00000011#16 = .ok (.init (.unknown 0x03#8)) ∧
    decode 0b0011_0_000_11111111#16 = .ok (.init (.unknown 0xFF#8)) :=
  ⟨rfl, rfl, rfl, rfl, rfl⟩

theorem test_decode_debugRead :
    decode 0b0100_0_000_00000000#16 = .ok (.debugRead 0) ∧ decode 0b0100_0_111_00000000#16 = .ok (.debugRead 7) :=
  ⟨rfl, rfl⟩

/-- T1's Invalid words. -/
theorem test_decode_invalid :
    decode 0x0201#16 = .error .nonzeroData ∧ decode 0x0A00#16 = .error .reservedBit ∧
    decode 0x1FFF#16 = .error .reservedBit ∧ decode 0x2001#16 = .error .nonzeroData ∧
    decode 0x2100#16 = .error .nonzeroPort ∧ decode 0x3100#16 = .error .nonzeroPort ∧
    decode 0x4701#16 = .error .nonzeroData ∧ decode 0x5000#16 = .error .reservedClass ∧
    decode 0xF000#16 = .error .reservedClass ∧ (decode 0xFFFF#16).toOption = none :=
  ⟨rfl, rfl, rfl, rfl, rfl, rfl, rfl, rfl, rfl, rfl⟩

/-- T1: "An Invalid word issued to a `Ready` instance is `Refused(ReservedWord)`". -/
theorem test_reservedWord : refusalOf (issue 0x0A00#16 State.reset) = some .reservedWord := by decide

/-- The table-word reading of the host, and its refusal beyond one word (R90). -/
theorem test_decodeTableWord :
    decodeTableWord 16 0x1680 = some (.write6 0x80#8) ∧ decodeTableWord 16 0x0A00 = none ∧
    decodeTableWord 32 0x10000 = none := by decide

/-! ### Register decode (T2) -/

theorem test_decodeControl1 :
    decodeControl1 0x04#8 = ⟨32, 0x0000#16, 0x0000#16, false, false⟩ ∧
    decodeControl1 0x08#8 = ⟨1, 0x1000#16, 0x0000#16, false, false⟩ ∧
    decodeControl1 0x10#8 = ⟨1, 0x0000#16, 0x1000#16, false, false⟩ ∧
    decodeControl1 0x20#8 = ⟨1, 0x0000#16, 0x0000#16, true, false⟩ ∧
    decodeControl1 0x80#8 = ⟨1, 0x0000#16, 0x0000#16, false, true⟩ ∧
    decodeControl1 0x43#8 = ⟨1, 0x0000#16, 0x0000#16, false, false⟩ ∧
    decodeControl1 0xBC#8 = ⟨32, 0x1000#16, 0x1000#16, true, true⟩ := by decide

theorem test_decodeControl2 :
    decodeControl2 0x1E#8 = ⟨false, true, true, true, true, 0#3⟩ ∧
    decodeControl2 0xE1#8 = ⟨true, false, false, false, false, 7#3⟩ ∧
    decodeControl2 0xA5#8 = ⟨true, false, true, false, false, 5#3⟩ := by decide

/-! ### Port reads (T3) -/

theorem test_read0_vbl_stays :
    nextOf (issue 0x0000#16 vblOn) =
      some { vblOn with trace := [⟨.read0, .byte 0x00#8, [.diag .readInvalidPort 0]⟩] } := by decide

theorem test_read0_not_ctrl1 :
    nextOf (issue 0x0000#16 (addrAt 0 0x80#8)) =
      some { addrAt 0 0x80#8 with trace := [⟨.read0, .byte 0x00#8, [.diag .readInvalidPort 0]⟩] } := by decide

theorem test_read1 :
    nextOf (issue 0x0100#16 State.reset) =
      some { State.reset with trace := [⟨.read1, .byte 0x00#8, [.diag .readInvalidPort 1]⟩] } := by decide

theorem test_read2_clears_vbl_not_the_toggle :
    nextOf (issue 0x0200#16 { vblOn with wAddr := .high }) =
      some { State.reset with wAddr := .high, trace := [⟨.read2, .byte 0x80#8, []⟩] } := by decide

theorem test_read2_refused_before_init : refusalOf (issue 0x0200#16 fresh) = some .notUsable := by decide

theorem test_read3 :
    nextOf (issue 0x0300#16 State.reset) =
      some { State.reset with trace := [⟨.read3, .byte 0x00#8, [.diag .readInvalidPort 3]⟩] } := by decide

theorem test_read4 :
    nextOf (issue 0x0400#16 State.reset) =
      some { State.reset with trace := [⟨.read4, .byte 0x00#8, [.diag .readInvalidPort 4]⟩] } := by decide

theorem test_read5_toggle_stays :
    nextOf (issue 0x0500#16 { State.reset with wScroll := .high }) =
      some { State.reset with
        wScroll := .high, trace := [⟨.read5, .byte 0x00#8, [.diag .readInvalidPort 5]⟩] } := by decide

theorem test_read6 :
    nextOf (issue 0x0600#16 (addrAt 0x1234#16 0)) =
      some { addrAt 0x1234#16 0 with trace := [⟨.read6, .byte 0x00#8, [.diag .readInvalidPort 6]⟩] } := by decide

theorem test_read7_no_increment :
    nextOf (issue 0x0700#16 { addrAt 0x3F01#16 0 with pal := [(1, 0x2A#8)] }) =
      some { addrAt 0x3F01#16 0 with
        pal := [(1, 0x2A#8)], trace := [⟨.read7, .byte 0x00#8, [.diag .readDataUnimplemented 7]⟩] } := by decide

/-! ### Port writes (T4) -/

theorem test_write0_no_request :
    nextOf (issue 0x1080#16 vblOn) =
      some { vblOn with ctrl1 := 0x80#8, trace := [⟨.write0 0x80#8, .nothing, []⟩] } := by decide

theorem test_write0_refused_after_failure : refusalOf (issue 0x1080#16 failed) = some .notUsable := by decide

theorem test_write1 :
    nextOf (issue 0x111E#16 State.reset) =
      some { State.reset with ctrl2 := 0x1E#8, trace := [⟨.write1 0x1E#8, .nothing, []⟩] } := by decide

theorem test_write2_vbl_stays :
    nextOf (issue 0x1200#16 vblOn) =
      some { vblOn with trace := [⟨.write2 0x00#8, .nothing, [.diag .writeUnimplemented 2]⟩] } := by decide

theorem test_write2_sets_nothing :
    nextOf (issue 0x12FF#16 State.reset) =
      some { State.reset with trace := [⟨.write2 0xFF#8, .nothing, [.diag .writeUnimplemented 2]⟩] } := by decide

theorem test_write3 :
    nextOf (issue 0x1310#16 State.reset) =
      some { State.reset with trace := [⟨.write3 0x10#8, .nothing, [.diag .writeUnimplemented 3]⟩] } := by decide

theorem test_write4 :
    nextOf (issue 0x14FF#16 State.reset) =
      some { State.reset with trace := [⟨.write4 0xFF#8, .nothing, [.diag .writeUnimplemented 4]⟩] } := by decide

theorem test_write5_low_phase :
    nextOf (issue 0x1512#16 { State.reset with scroll := 0xABCD#16 }) =
      some { State.reset with
        scroll := 0xAB12#16, wScroll := .high, trace := [⟨.write5 0x12#8, .nothing, []⟩] } := by decide

theorem test_write5_high_phase :
    nextOf (issue 0x1534#16 { State.reset with scroll := 0xAB12#16, wScroll := .high }) =
      some { State.reset with
        scroll := 0x3412#16, wScroll := .low, trace := [⟨.write5 0x34#8, .nothing, []⟩] } := by decide

theorem test_write6_high_phase_not_masked :
    nextOf (issue 0x16FF#16 { State.reset with wAddr := .high }) =
      some { State.reset with vaddr := 0xFF00#16, trace := [⟨.write6 0xFF#8, .nothing, []⟩] } := by decide

/-- The first half of T4's row `vaddr == 0x2000`. -/
theorem test_write6_low_phase :
    nextOf (issue 0x1605#16 (addrAt 0x2000#16 0)) =
      some { addrAt 0x2005#16 0 with wAddr := .high, trace := [⟨.write6 0x05#8, .nothing, []⟩] } := by decide

theorem test_write7_wraps :
    storeOf ⟨.pal, 31⟩ (issue 0x175A#16 (addrAt 0xFFFF#16 0x00#8)) = some (0x5A#8, 0x0000#16) ∧
    storeOf ⟨.pal, 0⟩ (issue 0x1766#16 (addrAt 0xFFE0#16 0x04#8)) = some (0x66#8, 0x0000#16) ∧
    storeOf ⟨.pat, 0⟩ (issue 0x1702#16 (addrAt 0x4000#16 0x00#8)) = some (0x02#8, 0x4001#16) ∧
    storeOf ⟨.pal, 16⟩ (issue 0x1730#16 (addrAt 0x3F10#16 0x00#8)) = some (0x30#8, 0x3F11#16) ∧
    storeOf ⟨.pal, 0⟩ (issue 0x1730#16 (addrAt 0x3F10#16 0x00#8)) = some (0x00#8, 0x3F11#16) := by decide

theorem test_write7_name_table_base_bytes :
    storeOf ⟨.nt, 0⟩ (issue 0x1744#16 (addrAt 0x23FF#16 0x00#8)) = some (0x44#8, 0x2400#16) ∧
    storeOf ⟨.nt, 1024⟩ (issue 0x1755#16 (addrAt 0x2C01#16 0x00#8)) = some (0x55#8, 0x2C02#16) ∧
    storeOf ⟨.nt, 1024⟩ (issue 0x1756#16 (addrAt 0x3EFF#16 0x00#8)) = some (0x56#8, 0x3F00#16) ∧
    storeOf ⟨.nt, 0⟩ (issue 0x1757#16 (addrAt 0x3000#16 0x00#8)) = some (0x57#8, 0x3001#16) ∧
    storeOf ⟨.nt, 0⟩ (issue 0x1777#16 { addrAt 0x2800#16 0x00#8 with mirror := verticalMap }) =
      some (0x77#8, 0x2801#16) ∧
    storeOf ⟨.nt, 1024⟩ (issue 0x1778#16 { addrAt 0x2400#16 0x00#8 with mirror := verticalMap }) =
      some (0x78#8, 0x2401#16) := by decide

/-! ### STEP (T5) -/

theorem test_step_within_a_line :
    tickOf (issue 0x2000#16 (posAt 0 0 0x00#8 0x00#8)) = some (0, 1, 0x00#8, [.renderHook 0 0]) ∧
    tickOf (issue 0x2000#16 (posAt 0 255 0x00#8 0x00#8)) = some (0, 256, 0x00#8, [.renderHook 0 255]) ∧
    tickOf (issue 0x2000#16 (posAt 0 256 0x00#8 0x00#8)) = some (0, 257, 0x00#8, []) ∧
    tickOf (issue 0x2000#16 (posAt 239 255 0x00#8 0x00#8)) = some (239, 256, 0x00#8, [.renderHook 239 255]) ∧
    tickOf (issue 0x2000#16 (posAt 240 0 0x00#8 0x00#8)) = some (240, 1, 0x00#8, []) ∧
    tickOf (issue 0x2000#16 (posAt 19 100 0x80#8 0x00#8)) = some (19, 101, 0x80#8, [.renderHook 19 100]) ∧
    tickOf (issue 0x2000#16 (posAt 241 0 0x00#8 0x80#8)) = some (241, 1, 0x00#8, []) :=
  ⟨rfl, rfl, rfl, rfl, rfl, rfl, rfl⟩

theorem test_step_across_lines :
    tickOf (issue 0x2000#16 (posAt 0 340 0x00#8 0x00#8)) = some (1, 0, 0x00#8, []) ∧
    tickOf (issue 0x2000#16 (posAt 19 340 0x80#8 0x00#8)) = some (20, 0, 0x00#8, []) ∧
    tickOf (issue 0x2000#16 (posAt 240 340 0x00#8 0x80#8)) = some (241, 0, 0x80#8, [.nmiRequest]) ∧
    tickOf (issue 0x2000#16 (posAt 240 340 0x00#8 0x7F#8)) = some (241, 0, 0x80#8, []) ∧
    tickOf (issue 0x2000#16 (posAt 241 340 0x00#8 0x80#8)) = some (242, 0, 0x00#8, []) ∧
    tickOf (issue 0x2000#16 (posAt 260 340 0x80#8 0x80#8)) = some (261, 0, 0x80#8, []) ∧
    tickOf (issue 0x2000#16 (posAt 261 340 0x80#8 0x80#8)) = some (0, 0, 0x80#8, [.frameDone]) :=
  ⟨rfl, rfl, rfl, rfl, rfl, rfl, rfl⟩

/-! ### INIT (T6) -/

theorem test_init_success :
    nextOf (issue 0x3000#16 { fresh with ctrl1 := 0xFF#8, nt := [(0, 0x01#8)], scanline := 300 }) =
      some { State.reset with trace := [⟨.init .horizontal, .status 0, []⟩] } ∧
    nextOf (issue 0x3001#16 fresh) =
      some { State.reset with mirror := verticalMap, trace := [⟨.init .vertical, .status 0, []⟩] } := by decide

theorem test_init_failure_and_refusal :
    (nextOf (issue 0x3002#16 fresh)).map State.life = some .failed ∧
    (nextOf (issue 0x3003#16 fresh)).map State.life = some .failed ∧
    (nextOf (issue 0x3000#16 { fresh with allocOk := false })).map State.life = some .failed ∧
    refusalOf (issue 0x3000#16 State.reset) = some .reInit ∧ refusalOf (issue 0x3001#16 failed) = some .reInit := by
  refine ⟨rfl, rfl, rfl, rfl, rfl⟩

/-! ### DEBUG_READ (T7) -/

theorem test_debugRead_vbl_stays :
    nextOf (issue 0x4200#16 vblOn) = some { vblOn with trace := [⟨.debugRead 2, .byte 0xFF#8, []⟩] } := by decide

theorem test_debugRead_refused :
    refusalOf (issue 0x4000#16 fresh) = some .notUsable ∧ refusalOf (issue 0x4500#16 failed) = some .notUsable := by decide

/-! ### The interface -/

/-- R218: with no operation waiting the block holds its state. -/
theorem test_idle : nextOf (step State.reset) = some State.reset := by decide

/-- R175, R206: the collaborator's flags gain the mask, and a second request is no change. -/
theorem test_flags : irqFlagsAfter 0 [.renderHook 0 0, .nmiRequest] = 0 ||| Config.nmiFlagMask := rfl

/-- R104: `vwrite 0x4123, 0x5A` is the words of E1. -/
theorem test_assemble : assemble [.vwrite 0x4123#16 0x5A#8] = [0x1623#16, 0x1641#16, 0x175A#16] := by decide

/-! ## Witnesses

For each obligation with hypotheses, states and operands that meet them, clause by clause. The obligations without one
(`ResetStateHasTheResetValues`, `ComposeFillsHalfByPhase`, `MapperNormalisesTo14Bits`, `Control1DecodesByBit`,
`Control2DecodesByBit`, `WrittenOutWordsDecode`, `InvariantHoldsAtReset`) have no hypothesis. -/

/-- The three lives, as hypotheses about `life` need them. -/
theorem witness_lives :
    State.reset.life = .ready ∧ fresh.life = .uninit ∧ failed.life = .failed ∧ fresh.life ≠ .ready ∧ failed.life ≠ .ready ∧
    State.reset.life ≠ .uninit ∧ failed.life ≠ .uninit := by decide

theorem witness_InitByModeAndAllocation :
    (State.reset.life ≠ .uninit ∧ failed.life ≠ .uninit) ∧
    (fresh.life = .uninit ∧ fresh.allocOk = true ∧
      mirrorMapOf .horizontal = some ⟨.region0, .region0, .region1, .region1⟩ ∧
      mirrorMapOf .vertical = some ⟨.region0, .region1, .region0, .region1⟩) ∧
    (MirrorType.cartridgeVram ≠ .horizontal ∧ MirrorType.cartridgeVram ≠ .vertical) ∧
    (MirrorType.unknown 3 ≠ .horizontal ∧ MirrorType.unknown 3 ≠ .vertical) ∧
    ({ fresh with allocOk := false }.life = .uninit ∧ { fresh with allocOk := false }.allocOk = false) := by decide

theorem witness_FailedInitLeavesInstanceUnusable :
    fresh.life = .uninit ∧ (MirrorType.cartridgeVram ≠ .horizontal ∧ MirrorType.cartridgeVram ≠ .vertical) ∧
    { fresh with allocOk := false }.life = .uninit ∧ { fresh with allocOk := false }.allocOk = false := by decide

theorem witness_CreatedInstanceBootsByInit :
    mirrorMapOf .horizontal = some horizontalMap ∧ mirrorMapOf .vertical = some verticalMap ∧
    decode 0x2000#16 = .ok .step ∧ isInit .step = false := ⟨rfl, rfl, rfl, rfl⟩

theorem witness_LifecycleGateByOperation :
    (isInit (.init .vertical) = true ∧ fresh.life = .uninit ∧ State.reset.life ≠ .uninit ∧ failed.life ≠ .uninit) ∧
    (isInit .step = false ∧ State.reset.life = .ready ∧ fresh.life ≠ .ready ∧ failed.life ≠ .ready) := by decide

theorem witness_LifeChangesOnlyByInit :
    (∃ t, exec .step State.reset = .next t ∧ isInit .step = false) ∧
    (∃ t, exec (.init .horizontal) fresh = .next t ∧ t.life = .ready) ∧
    (∃ t, exec (.init .cartridgeVram) fresh = .next t ∧ t.life = .failed) ∧
    (isInit (.init .horizontal) = true ∧ State.reset.life ≠ .uninit) ∧ (isInit .step = false ∧ fresh.life ≠ .ready) :=
  ⟨⟨_, rfl, rfl⟩, ⟨_, rfl, rfl⟩, ⟨_, rfl, rfl⟩, by decide, by decide⟩

/-- A member of the statement's list, and both lives. -/
theorem witness_InvalidReadsReturnZeroAndDiagnose :
    (.read6, 6, 0x0600#16) ∈ ([(.read0, 0, 0x0000#16), (.read1, 1, 0x0100#16), (.read3, 3, 0x0300#16),
      (.read4, 4, 0x0400#16), (.read5, 5, 0x0500#16), (.read6, 6, 0x0600#16)] : List (Instr × Port × Word)) ∧
    State.reset.life = .ready ∧ fresh.life ≠ .ready := by decide

theorem witness_StatusReadReturnsThenClearsVbl :
    vblOn.life = .ready ∧ State.reset.life = .ready ∧ failed.life ≠ .ready := by decide

theorem witness_DataReadIsUnimplemented : (addrAt 0x3F01#16 0).life = .ready ∧ fresh.life ≠ .ready := by decide

theorem witness_ReadsChangeOnlyVbl :
    (∃ t, isRead .read2 = true ∧ exec .read2 vblOn = .next t) ∧ (∃ t, isRead .read7 = true ∧ exec .read7 vblOn = .next t) ∧
    Instr.read7 ≠ .read2 := ⟨⟨_, rfl, rfl⟩, ⟨_, rfl, rfl⟩, by decide⟩

theorem witness_SecondStatusReadSeesVblClear :
    { vblOn with input := [0x0200#16, 0x0200#16, 0x2000#16] }.life = .ready ∧
    { vblOn with input := [0x0200#16, 0x0200#16, 0x2000#16] }.input = 0x0200#16 :: 0x0200#16 :: [0x2000#16] := ⟨rfl, rfl⟩

theorem witness_DebugReadReturnsSentinel : vblOn.life = .ready ∧ fresh.life ≠ .ready := by decide

theorem witness_ControlWritesAssignTheByte : vblOn.life = .ready ∧ failed.life ≠ .ready := by decide

theorem witness_UnimplementedWritesOnlyDiagnose :
    (.write4 0xFF#8, 4, 0x1400) ∈
      ([(.write2 0xFF#8, 2, 0x1200), (.write3 0xFF#8, 3, 0x1300), (.write4 0xFF#8, 4, 0x1400)] :
        List (Instr × Port × Nat)) ∧ vblOn.life = .ready ∧ failed.life ≠ .ready := by decide

theorem witness_ScrollAndAddressWritesAreTwoPhase :
    (State.reset.life = .ready ∧ State.reset.wScroll = .low ∧ State.reset.wAddr = .low) ∧
    ({ State.reset with wScroll := .high, wAddr := .high }.life = .ready ∧
      { State.reset with wScroll := .high, wAddr := .high }.wScroll = .high ∧
      { State.reset with wScroll := .high, wAddr := .high }.wAddr = .high) ∧ fresh.life ≠ .ready := by decide

theorem witness_DataWriteStoresThenIncrements :
    (addrAt 0xFFFF#16 0).life = .ready ∧ (addrAt 0xFFE0#16 0x04#8).life = .ready ∧ fresh.life ≠ .ready := by decide

/-- Each memory at the ends of its range, and a location that is not the one stored to. -/
theorem witness_DataWriteFrame :
    ((addrAt 0x1FFF#16 0).memWf = true ∧ (addrAt 0x1FFF#16 0).life = .ready ∧
      locate (addrAt 0x1FFF#16 0).mirror (addrAt 0x1FFF#16 0).vaddr = ⟨.pat, 0x1FFF⟩ ∧
      (⟨.pat, 0x1FFE⟩ : Loc) ≠ ⟨.pat, 0x1FFF⟩) ∧
    locate horizontalMap 0x2000#16 = ⟨.nt, 0⟩ ∧ locate horizontalMap 0x3EFF#16 = ⟨.nt, 1024⟩ ∧
    locate horizontalMap 0x3F00#16 = ⟨.pal, 0⟩ ∧ locate horizontalMap 0x3FFF#16 = ⟨.pal, 31⟩ ∧
    locate horizontalMap 0x4000#16 = ⟨.pat, 0⟩ := by decide

theorem witness_MapReadByRegion :
    (0x1FFF#16).toNat % 16384 < 0x2000 ∧
    (0x2000 ≤ (0x2000#16).toNat % 16384 ∧ (0x2000#16).toNat % 16384 < 0x3F00) ∧
    (0x2000 ≤ (0x3EFF#16).toNat % 16384 ∧ (0x3EFF#16).toNat % 16384 < 0x3F00) ∧
    0x3F00 ≤ (0x3F00#16).toNat % 16384 := by decide

theorem witness_MapWriteStoresOneByte :
    { State.reset with pat := [(0, 0x01#8), (8191, 0xFF#8)], nt := [(1024, 0x02#8)], pal := [(31, 0x03#8)] }.memWf = true := by
  decide

theorem witness_NameTableSlotAliasesOneByte :
    State.reset.memWf = true ∧
    (0x2000 ≤ (0x2C00#16).toNat % 16384 ∧ (0x2C00#16).toNat % 16384 < 0x3F00 ∧
      0x2000 ≤ (0x3EFF#16).toNat % 16384 ∧ (0x3EFF#16).toNat % 16384 < 0x3F00 ∧
      (0x2C00#16).toNat / 1024 % 4 = (0x3EFF#16).toNat / 1024 % 4) := by decide

theorem witness_MirrorModesPairSlots :
    (∃ t, exec (.init .horizontal) fresh = .next t ∧ t.life = .ready) ∧
    (∃ t, exec (.init .vertical) fresh = .next t ∧ t.life = .ready) := ⟨⟨_, rfl, rfl⟩, ⟨_, rfl, rfl⟩⟩

theorem witness_PaletteFoldsModulo32 :
    0x3F00 ≤ (0x3FFF#16).toNat % 16384 ∧ State.reset.memWf = true ∧ 0x3F00 ≤ (0x3F00#16).toNat % 16384 ∧
    (0x3FFF#16).toNat % 32 ≠ (0x3F00#16).toNat % 32 := by decide

theorem witness_CanonicalMemoriesWithEqualBytesAreEqual :
    Memory.wf 32 (Memory.write [(3, 0x01#8)] 3 0x00#8) = true ∧ Memory.wf 32 [] = true ∧
    ∀ a, Memory.read (Memory.write [(3, 0x01#8)] 3 0x00#8) a = Memory.read [] a := ⟨rfl, rfl, fun _ => rfl⟩

theorem witness_DecoderFollowsFields :
    { State.reset with input := [0x0A00#16] }.input = 0x0A00#16 :: [] ∧ (decode 0x0A00#16).toOption = none := ⟨rfl, rfl⟩

theorem witness_DecodeMatchesOpcodeTable :
    decode 0x17FF#16 = .ok (.write7 0xFF#8) ∧ (⟨0x4000#16, 0xF8FF#16⟩ : OpcodeRow) ∈ opcodeRows ∧
    (⟨0x4000#16, 0xF8FF#16⟩ : OpcodeRow).covers 0x4700#16 = true := ⟨rfl, by decide, rfl⟩

theorem witness_DecodeOfEncode :
    (Instr.init (.unknown 0x03#8)).wellFormed = true ∧ (Instr.init (.unknown 0xFF#8)).wellFormed = true ∧
    (Instr.debugRead 7).wellFormed = true := ⟨rfl, rfl, rfl⟩

theorem witness_EncodeOfDecode : decode 0x3003#16 = .ok (.init (.unknown 0x03#8)) := rfl

theorem witness_StepByPosition :
    failed.life ≠ .ready ∧ (posAt 0 339 0 0).life = .ready ∧ (posAt 0 339 0 0).dot ≠ 340 ∧
    ((posAt 18 340 0 0).dot = 340 ∧ (posAt 18 340 0 0).scanline ≠ 19 ∧ (posAt 18 340 0 0).scanline ≠ 240 ∧
      (posAt 18 340 0 0).scanline ≠ 261) ∧
    ((posAt 19 340 0x80#8 0).dot = 340 ∧ (posAt 19 340 0x80#8 0).scanline = 19) ∧
    ((posAt 240 340 0 0x80#8).dot = 340 ∧ (posAt 240 340 0 0x80#8).scanline = 240) ∧
    ((posAt 261 340 0 0).dot = 340 ∧ (posAt 261 340 0 0).scanline = 261) := by decide

theorem witness_VblClearedOnlyAtLine20OrByStatusRead :
    ((posAt 19 340 0x80#8 0).life = .ready ∧ (posAt 19 340 0x80#8 0).scanline = 19 ∧ (posAt 19 340 0x80#8 0).dot = 340) ∧
    (∃ t, isInit .read2 = false ∧ exec .read2 vblOn = .next t ∧ vblOn.status.getLsbD 7 = true ∧ t.status.getLsbD 7 = false) ∧
    (∃ t, exec .step (posAt 19 340 0x80#8 0) = .next t ∧ (posAt 19 340 0x80#8 0).status.getLsbD 7 = true ∧
      t.status.getLsbD 7 = false) := ⟨by decide, ⟨_, rfl, rfl, rfl, rfl⟩, ⟨_, rfl, rfl, rfl⟩⟩

theorem witness_EnteringLine241SetsVblAndRequests :
    ((posAt 240 340 0 0x80#8).life = .ready ∧ (posAt 240 340 0 0x80#8).scanline = 240 ∧ (posAt 240 340 0 0x80#8).dot = 340) ∧
    ((posAt 240 340 0x80#8 0x7F#8).life = .ready ∧ (posAt 240 340 0x80#8 0x7F#8).scanline = 240 ∧
      (posAt 240 340 0x80#8 0x7F#8).dot = 340) := by decide

theorem witness_NmiRequestedOnlyOnEnteringLine241 :
    (∃ t, exec .step (posAt 240 340 0 0x80#8) = .next t ∧ t.trace = [⟨.step, .nothing, [.nmiRequest]⟩]) ∧
    (∃ t, exec (.write0 0x80#8) vblOn = .next t ∧ t.trace = [⟨.write0 0x80#8, .nothing, []⟩]) :=
  ⟨⟨_, rfl, rfl⟩, ⟨_, rfl, rfl⟩⟩

theorem witness_IrqFlagsOnlyGainTheMask :
    Event.nmiRequest ∈ [Event.renderHook 0 0, .nmiRequest] ∧ Event.nmiRequest ∉ [Event.frameDone] ∧
    Nat.testBit 4 2 = true := by decide

theorem witness_StepTouchesOnlyTimingAndVbl :
    (∃ t, exec .step (posAt 240 340 0 0x80#8) = .next t) ∧
    (let s := posAt 240 340 0 0x80#8
     let s' := { posAt 240 340 0 0xFF#8 with ctrl2 := 0x1E#8, vaddr := 0x2000#16 }
     s'.life = s.life ∧ s'.scanline = s.scanline ∧ s'.dot = s.dot ∧ s'.status = s.status ∧
      s'.ctrl1.getLsbD 7 = s.ctrl1.getLsbD 7) := ⟨⟨_, rfl⟩, by decide⟩

theorem witness_PositionAdvancesOnlyByStep :
    (∃ t, exec (.write7 0x11#8) (posAt 261 340 0 0) = .next t ∧ isInit (.write7 0x11#8) = false ∧
      Instr.write7 0x11#8 ≠ .step) ∧
    (∃ t, exec (.init .horizontal) { fresh with scanline := 5 } = .next t ∧ t.life = .ready) ∧
    (∃ t, exec .step (posAt 261 340 0 0) = .next t ∧ (posAt 261 340 0 0).scanline.toNat ≤ 261 ∧
      (posAt 261 340 0 0).dot.toNat ≤ 340) := ⟨⟨_, rfl, rfl, by decide⟩, ⟨_, rfl, rfl⟩, ⟨_, rfl, by decide⟩⟩

theorem witness_DiagnosticsByOperation :
    (∃ t, exec .read6 State.reset = .next t ∧ t.trace = [⟨.read6, .byte 0x00#8, [.diag .readInvalidPort 6]⟩] ∧
      Event.diag .readInvalidPort 6 ∈ [Event.diag .readInvalidPort 6]) ∧
    (∃ t, exec .read7 State.reset = .next t ∧ t.trace = [⟨.read7, .byte 0x00#8, [.diag .readDataUnimplemented 7]⟩]) ∧
    (∃ t, exec (.write4 0xFF#8) State.reset = .next t ∧
      t.trace = [⟨.write4 0xFF#8, .nothing, [.diag .writeUnimplemented 4]⟩]) :=
  ⟨⟨_, rfl, rfl, by decide⟩, ⟨_, rfl, rfl⟩, ⟨_, rfl, rfl⟩⟩

theorem witness_EventOrderWithinAnOperation :
    (∃ t, exec .step (posAt 239 255 0 0) = .next t) ∧
    (∃ t, exec (.write2 0x00#8) State.reset = .next t ∧ Instr.write2 0x00#8 ≠ .step) := ⟨⟨_, rfl⟩, ⟨_, rfl, by decide⟩⟩

theorem witness_TogglesFlipOnlyWithTheirPort :
    (∃ t, exec (.init .vertical) fresh = .next t ∧ t.life = .ready) ∧
    (∃ t, exec (.write5 0x01#8) State.reset = .next t ∧ isInit (.write5 0x01#8) = false) ∧
    (∃ t, exec (.write6 0x01#8) State.reset = .next t ∧ isInit (.write6 0x01#8) = false) ∧
    (¬ ∃ v, Instr.read2 = .write5 v) ∧ (¬ ∃ v, Instr.read2 = .write6 v) ∧ (∃ t, exec .read2 State.reset = .next t) :=
  ⟨⟨_, rfl, rfl⟩, ⟨_, rfl, rfl⟩, ⟨_, rfl, rfl⟩, nofun, nofun, ⟨_, rfl⟩⟩

theorem witness_MirrorAndMemoryHaveOneWriter :
    ∃ t, exec .step State.reset = .next t ∧ isInit .step = false ∧ ¬ ∃ v, Instr.step = .write7 v :=
  ⟨_, rfl, rfl, nofun⟩

theorem witness_StepPerformsTheOldestWord :
    ({ State.reset with input := [0x2000#16, 0x0200#16] }.input = 0x2000#16 :: [0x0200#16] ∧
      decode 0x2000#16 = .ok .step) ∧
    State.reset.input = [] ∧ (Instr.init (.unknown 0x03#8)).wellFormed = true := ⟨⟨rfl, rfl⟩, rfl, rfl⟩

theorem witness_StepCompletesIffDutiesKept :
    State.reset.dutiesKept = true ∧ { State.reset with input := [0x2000#16] }.dutiesKept = true ∧
    { fresh with input := [0x2000#16] }.dutiesKept = false ∧ { State.reset with input := [0x3000#16] }.dutiesKept = false ∧
    { State.reset with input := [0xFFFF#16] }.dutiesKept = false := by decide

/-- A ready instance with reset's memories and mirror map meets the invariant when its position and `status` do. -/
theorem inv_posAt {sl d : Counter} {st c : Byte} (h0 : st &&& 0x7F#8 = 0#8) (h1 : sl.toNat ≤ 261) (h2 : d.toNat ≤ 340)
    (h3 : 20 ≤ sl.toNat → sl.toNat ≤ 240 → vblSet st = false) : (posAt sl d st c).Inv :=
  ⟨rfl, fun _ => ⟨h0, h1, h2, .inl rfl, fun _ _ _ => rfl, h3⟩⟩

/-- The invariant's boundary positions: before the clear, after it, before the set, and at the wrap; and it steps there. -/
theorem witness_InvariantKeptByEveryStep :
    ((posAt 19 340 0x80#8 0).Inv ∧ (posAt 20 0 0x00#8 0).Inv ∧ (posAt 240 340 0x00#8 0x80#8).Inv ∧
      (posAt 261 340 0x80#8 0).Inv) ∧
    ({ posAt 240 340 0x00#8 0x80#8 with input := [0x2000#16] }.Inv ∧
      ∃ t, step { posAt 240 340 0x00#8 0x80#8 with input := [0x2000#16] } = .next t) :=
  ⟨⟨inv_posAt rfl (by decide) (by decide) (fun h => absurd h (by decide)),
      inv_posAt rfl (by decide) (by decide) (fun _ _ => rfl), inv_posAt rfl (by decide) (by decide) (fun _ _ => rfl),
      inv_posAt rfl (by decide) (by decide) (fun _ h => absurd h (by decide))⟩,
    ⟨rfl, fun _ => ⟨rfl, by decide, by decide, .inl rfl, fun _ _ _ => rfl, fun _ _ => rfl⟩⟩, ⟨_, rfl⟩⟩

/-- An instance that is not ready meets the invariant too, and steps. -/
theorem witness_InvariantKeptByEveryStep_uninit :
    fresh.Inv ∧ ∃ t, step { fresh with input := [0x3001#16] } = .next t :=
  ⟨⟨rfl, fun h => nomatch h⟩, ⟨_, rfl⟩⟩

theorem witness_RunOfStepsReachesPosition :
    let s := { posAt 261 340 0 0 with input := stepWords 3 [0x0200#16] }
    s.life = .ready ∧ s.scanline.toNat ≤ 261 ∧ s.dot.toNat ≤ 340 ∧ s.input = stepWords 3 [0x0200#16] := by decide

theorem witness_FrameOfStepsReturnsWithItsEvents :
    let s := { posAt 261 340 0 0x80#8 with input := stepWords 89342 [] }
    s.life = .ready ∧ s.scanline.toNat ≤ 261 ∧ s.dot.toNat ≤ 340 ∧ s.input = stepWords 89342 [] :=
  ⟨rfl, Nat.le_refl 261, Nat.le_refl 340, rfl⟩

/-- Both ends of the range of `k`, and 13981, the last with VBL set. -/
theorem witness_VblLastsFromLine241ToLine20 :
    (let s := { posAt 240 340 0 0 with input := stepWords 1 [] }
     s.life = .ready ∧ s.scanline = 240 ∧ s.dot = 340 ∧ 1 ≤ 1 ∧ 1 ≤ 13982 ∧ s.input = stepWords 1 []) ∧
    (let s := { posAt 240 340 0x80#8 0 with input := stepWords 13981 [] }
     s.life = .ready ∧ s.scanline = 240 ∧ s.dot = 340 ∧ 1 ≤ 13981 ∧ 13981 ≤ 13982 ∧ s.input = stepWords 13981 []) ∧
    (let s := { posAt 240 340 0 0xFF#8 with input := stepWords 13982 [0x0200#16] }
     s.life = .ready ∧ s.scanline = 240 ∧ s.dot = 340 ∧ 1 ≤ 13982 ∧ 13982 ≤ 13982 ∧
      s.input = stepWords 13982 [0x0200#16]) :=
  ⟨⟨rfl, rfl, rfl, by decide, by decide, rfl⟩, ⟨rfl, rfl, rfl, by decide, by decide, rfl⟩,
    ⟨rfl, rfl, rfl, by decide, by decide, rfl⟩⟩

theorem witness_PseudoOperationsDoWhatTheySay :
    (let s := { addrAt 0x2000#16 0x04#8 with input := assemble [.setaddr 0x3F05#16] ++ [] }
     s.life = .ready ∧ s.memWf = true ∧ s.wAddr = .low ∧ s.input = assemble [.setaddr 0x3F05#16] ++ []) ∧
    (let s := { State.reset with input := assemble [.setscroll 0xFFFF#16] ++ [] }
     s.life = .ready ∧ s.memWf = true ∧ s.wScroll = .low ∧ s.input = assemble [.setscroll 0xFFFF#16] ++ []) ∧
    (let s := { State.reset with input := assemble [.vwrite 0xFFFF#16 0x5A#8] ++ [] }
     s.life = .ready ∧ s.memWf = true ∧ s.wAddr = .low ∧ s.input = assemble [.vwrite 0xFFFF#16 0x5A#8] ++ []) := by decide

/-- Two different states that look alike, a run between them and a refusal. -/
theorem witness_HiddenStateNeverShows :
    (let s := { posAt 240 340 0 0x80#8 with input := [0x2000#16] }
     let t := { s with ctrl1 := 0xFF#8, ctrl2 := 0x1E#8, vaddr := 0x1234#16, pat := [(0, 0x01#8)], mirror := verticalMap }
     SeenAlike s t ∧ s ≠ t ∧ ∃ u, runsTo 1 s u) ∧
    SeenAlike { fresh with input := [0x2000#16] } { fresh with input := [0x2000#16], wAddr := .high } ∧
    Host.Core.run Sys2Proof.core 1 { fresh with input := [0x2000#16] } = .refused .notUsable :=
  ⟨⟨⟨rfl, rfl, rfl, rfl, rfl, rfl, rfl, rfl⟩, by decide, ⟨_, rfl⟩⟩, ⟨rfl, rfl, rfl, rfl, rfl, rfl, rfl, rfl⟩, rfl⟩

end Sys2Proof.Machine.Tests
end

