-- ==== Sys2Proof/Proofs/StateFamily.lean ====
section
/-! PROOFS. The statements about the state of the block (`10_state.md`): the values at reset, the invariant, the
lifecycle, which operation writes what, and what no operation can observe. -/

namespace Sys2Proof.Machine

/-! ### What an operation other than INIT leaves unchanged -/

@[simp] theorem advanceDot_wScroll (s : State) : (advanceDot s).1.wScroll = s.wScroll := by
  rw [advanceDot_frame s]

@[simp] theorem advanceDot_wAddr (s : State) : (advanceDot s).1.wAddr = s.wAddr := by
  rw [advanceDot_frame s]

@[simp] theorem advanceDot_memWf (s : State) : (advanceDot s).1.memWf = s.memWf := by
  rw [advanceDot_frame s]; rfl

@[simp] theorem advanceDot_readLoc (s : State) (l : Loc) : (advanceDot s).1.readLoc l = s.readLoc l := by
  rw [advanceDot_frame s]; rfl

/-- The composition always flips the toggle (R156). -/
@[simp] theorem compose_snd (r : Word) (t : Phase) (b : Byte) : (compose r t b).2 = t.flip := by
  cases t <;> rfl

/-- `wScroll` after an operation: flipped by WRITE port 5 alone (R31). -/
theorem effectOf_wScroll (s : State) (i : Instr) :
    ((∃ v, i = .write5 v) → (effectOf s i).1.wScroll = s.wScroll.flip) ∧
    ((¬ ∃ v, i = .write5 v) → (effectOf s i).1.wScroll = s.wScroll) := by
  cases i with
  | write5 v => simp [effectOf]
  | read2 => simp only [effectOf]; split <;> simp
  | _ => simp [effectOf]

/-- `wAddr` after an operation: flipped by WRITE port 6 alone (R31). -/
theorem effectOf_wAddr (s : State) (i : Instr) :
    ((∃ v, i = .write6 v) → (effectOf s i).1.wAddr = s.wAddr.flip) ∧
    ((¬ ∃ v, i = .write6 v) → (effectOf s i).1.wAddr = s.wAddr) := by
  cases i with
  | write6 v => simp [effectOf]
  | read2 => simp only [effectOf]; split <;> simp
  | _ => simp [effectOf]

/-- Only WRITE port 7 writes a byte of memory (R72, R86). -/
theorem effectOf_readLoc (s : State) {i : Instr} (hi : ¬ ∃ v, i = .write7 v) (l : Loc) :
    (effectOf s i).1.readLoc l = s.readLoc l := by
  cases i with
  | write7 v => exact absurd ⟨v, rfl⟩ hi
  | read2 => simp only [effectOf]; split <;> rfl
  | step => exact advanceDot_readLoc s l
  | _ => rfl

/-! ### The reset values and the lifecycle -/

/-- Settles O1: the fields by evaluation, the bytes by the memory they lie in. -/
theorem resetStateHasTheResetValues : Obligations.ResetStateHasTheResetValues := by
  refine ⟨rfl, rfl, rfl, rfl, rfl, rfl, rfl, rfl, rfl, rfl, rfl, ?_⟩
  rintro ⟨_ | _ | _, _⟩ <;> rfl

/-- The modes that wire a mirror map (R190). -/
theorem mirrorMapOf_eq_some {m : MirrorType} {map : MirrorMap} (h : mirrorMapOf m = some map) :
    (m = .horizontal ∧ map = horizontalMap) ∨ (m = .vertical ∧ map = verticalMap) := by
  cases m <;> simp_all [mirrorMapOf]

/-- What a completed INIT makes of `life`, by the mode and the host's `allocOk` (R190, R191). -/
theorem execInit_life {m : MirrorType} {s t : State} (h : exec (.init m) s = .next t) :
    (t.life = .ready ∧ s.allocOk = true ∧ (m = .horizontal ∨ m = .vertical)) ∨
    (t.life = .failed ∧ ¬ (s.allocOk = true ∧ (m = .horizontal ∨ m = .vertical))) := by
  obtain ⟨-, ⟨map, hmap, hok, rfl⟩ | ⟨hfail, rfl⟩⟩ := execInit_next h
  · exact .inl ⟨rfl, hok, (mirrorMapOf_eq_some hmap).imp And.left And.left⟩
  · refine .inr ⟨rfl, ?_⟩
    rintro ⟨hok, hm⟩
    rcases hfail with hnone | hno
    · obtain ⟨hh, hv⟩ := mirrorMapOf_eq_none.1 hnone
      exact hm.elim hh hv
    · exact absurd (hok.symm.trans hno) (by decide)

/-- Out of `ready`, every operation but INIT is refused (R195). -/
theorem exec_refused_of_not_ready {i : Instr} (hi : isInit i = false) {s : State} (h : s.life ≠ .ready) :
    exec i s = .refused .notUsable := by
  rw [exec_eq_effect hi, whenReady_refused h]

/-- Out of `uninit`, INIT is refused (R193). -/
theorem exec_refused_of_not_uninit {i : Instr} (hi : isInit i = true) {s : State} (h : s.life ≠ .uninit) :
    exec i s = .refused .reInit := by
  cases i with
  | init m => exact whenUninit_refused h _
  | _ => cases hi

/-- Settles O6: an operation's effect keeps `life`, INIT decides it by `execInit_life`, the gates refuse the rest. -/
theorem lifeChangesOnlyByInit : Obligations.LifeChangesOnlyByInit := by
  refine ⟨fun _ _ => rfl, ?_, ?_, ?_⟩
  · intro i s t h hi
    obtain ⟨hready, rfl⟩ := exec_next hi h
    exact ⟨hready, by simp [hready]⟩
  · intro m s t h
    refine ⟨(execInit_next h).1, ?_⟩
    rcases execInit_life h with ⟨hlife, hcond⟩ | ⟨hlife, hcond⟩
    · simp [hlife, hcond]
    · simp only [hlife, hcond]; decide
  · rintro i s (⟨hi, hlife⟩ | ⟨hi, hlife⟩)
    · exact ⟨_, exec_refused_of_not_uninit hi hlife⟩
    · exact ⟨_, exec_refused_of_not_ready hi hlife⟩

/-- Settles O42: an initialised state has both toggles low, and the other operations go by their effect. -/
theorem togglesFlipOnlyWithTheirPort : Obligations.TogglesFlipOnlyWithTheirPort := by
  intro i s t h
  refine ⟨fun hi hready => ?_, fun hi => ?_⟩
  · cases i with
    | init m =>
      obtain ⟨-, ⟨map, -, -, rfl⟩ | ⟨-, rfl⟩⟩ := execInit_next h
      · exact ⟨rfl, rfl⟩
      · cases hready
    | _ => cases hi
  · obtain ⟨-, rfl⟩ := exec_next hi h
    exact ⟨effectOf_wScroll s i, effectOf_wAddr s i⟩

/-- Settles O43: by the effect of the operation. -/
theorem mirrorAndMemoryHaveOneWriter : Obligations.MirrorAndMemoryHaveOneWriter := by
  intro i s t h hi
  obtain ⟨-, rfl⟩ := exec_next hi h
  exact ⟨effectOf_mirror s i, fun hw l => effectOf_readLoc s hw l⟩

/-! ### The interrupt collaborator's flags -/

/-- The flags gain the mask once, however often it is requested: OR is idempotent (R206). -/
theorem irqFlagsAfter_eq (flags : IrqFlags) (events : List Event) :
    irqFlagsAfter flags events = if .nmiRequest ∈ events then flags ||| Config.nmiFlagMask else flags := by
  induction events generalizing flags with
  | nil => rfl
  | cons e rest ih =>
    have hcons : irqFlagsAfter flags (e :: rest) = irqFlagsAfter (e.applyToFlags flags) rest := rfl
    rw [hcons, ih]
    cases e with
    | nmiRequest => simp [Event.applyToFlags]
    | _ => simp [Event.applyToFlags]

/-- Settles O37: from the closed form of the flags. -/
theorem irqFlagsOnlyGainTheMask : Obligations.IrqFlagsOnlyGainTheMask := by
  intro flags events
  simp only [irqFlagsAfter_eq]
  refine ⟨fun h => if_pos h, fun h => if_neg h, fun b hb => ?_⟩
  split
  · simp [hb]
  · exact hb

/-! ### Canonical memories -/

/-- The first entry of a memory is what its index reads as. -/
theorem Memory.read_cons_self (k : Nat) (v : Byte) (rest : Memory) : Memory.read ((k, v) :: rest) k = v := by
  simp [Memory.read]

/-- Past its first entry, a memory reads as the entries that follow. -/
theorem Memory.read_cons_of_lt {k a : Nat} (h : k < a) (v : Byte) (rest : Memory) :
    Memory.read ((k, v) :: rest) a = rest.read a := by
  simp [Memory.read, show ¬ a < k by omega, show a ≠ k by omega]

/-- A memory with an entry at `k` differs at `k` from every memory whose entries lie above `k`. -/
theorem Memory.read_cons_ne_of_wfFrom {size lo k : Nat} {v : Byte} {rest m : Memory}
    (h : Memory.wfFrom size lo ((k, v) :: rest) = true) (hm : Memory.wfFrom size (k + 1) m = true) :
    Memory.read ((k, v) :: rest) k ≠ m.read k := by
  obtain ⟨-, -, hv, -⟩ := Memory.wfFrom_cons.1 h
  rwa [Memory.read_cons_self, Memory.read_below hm (by omega)]

/-- The canonical form from an index on is determined by the bytes: the first entries agree in index (or the lower one
would show) and in value, and the rest by induction. -/
theorem Memory.eq_of_read_eq {size lo : Nat} {m m' : Memory} (h : Memory.wfFrom size lo m = true)
    (h' : Memory.wfFrom size lo m' = true) (hread : ∀ a, m.read a = m'.read a) : m = m' := by
  induction m generalizing lo m' with
  | nil =>
    cases m' with
    | nil => rfl
    | cons c' rest' => exact absurd (hread c'.1).symm (Memory.read_cons_ne_of_wfFrom h' rfl)
  | cons c rest ih =>
    obtain ⟨k, v⟩ := c
    cases m' with
    | nil => exact absurd (hread k) (Memory.read_cons_ne_of_wfFrom h rfl)
    | cons c' rest' =>
      obtain ⟨k', v'⟩ := c'
      obtain ⟨-, hk, hv, hrest⟩ := Memory.wfFrom_cons.1 h
      obtain ⟨-, hk', hv', hrest'⟩ := Memory.wfFrom_cons.1 h'
      rcases Nat.lt_trichotomy k k' with hlt | rfl | hlt
      · exact absurd (hread k)
          (Memory.read_cons_ne_of_wfFrom h (Memory.wfFrom_cons.2 ⟨hlt, hk', hv', hrest'⟩))
      · have hhead : v = v' := by simpa only [Memory.read_cons_self] using hread k
        have htail : ∀ a, Memory.read rest a = Memory.read rest' a := by
          intro a
          by_cases ha : a < k + 1
          · rw [Memory.read_below hrest ha, Memory.read_below hrest' ha]
          · have ha : k < a := by omega
            simpa only [Memory.read_cons_of_lt ha] using hread a
        rw [hhead, ih hrest hrest' htail]
      · exact absurd (hread k').symm
          (Memory.read_cons_ne_of_wfFrom h' (Memory.wfFrom_cons.2 ⟨hlt, hk, hv, hrest⟩))

/-- Settles O25: the canonical form from index 0 on. -/
theorem canonicalMemoriesWithEqualBytesAreEqual : Obligations.CanonicalMemoriesWithEqualBytesAreEqual :=
  fun _ _ _ h h' hread => Memory.eq_of_read_eq h h' hread

/-! ### The invariant -/

/-- `ReadyInv` speaks of `status`, the position, the mirror map and the name-table bytes only. -/
theorem State.ReadyInv.congr {s t : State} (h : s.ReadyInv) (hstatus : t.status = s.status)
    (hline : t.scanline = s.scanline) (hdot : t.dot = s.dot) (hmirror : t.mirror = s.mirror)
    (hnt : ∀ i, i ≠ 0 → i ≠ 1024 → t.nt.read i = s.nt.read i) : t.ReadyInv where
  status_reserved := hstatus ▸ h.status_reserved
  scanline_le := hline ▸ h.scanline_le
  dot_le := hdot ▸ h.dot_le
  mirror_wired := hmirror ▸ h.mirror_wired
  nt_unreachable i h0 h1 := (hnt i h0 h1).trans (h.nt_unreachable i h0 h1)
  vbl_window := by rw [hline, hstatus]; exact h.vbl_window

/-- Recording an operation keeps the invariant. -/
theorem State.Inv.emit {s : State} (h : s.Inv) (i : Instr) (r : Result) (e : List Event) : (s.emit i r e).Inv where
  mem_wf := h.mem_wf
  ready_inv hl := (h.ready_inv hl).congr rfl rfl rfl rfl fun _ _ _ => rfl

/-- Taking words off the input keeps the invariant. -/
theorem State.Inv.withInput {s : State} (h : s.Inv) (ws : List Word) : State.Inv { s with input := ws } where
  mem_wf := h.mem_wf
  ready_inv hl := (h.ready_inv hl).congr rfl rfl rfl rfl fun _ _ _ => rfl

/-- A successful INIT leaves a state that meets the invariant, whatever was there before (R44). -/
theorem State.initialised_inv (s : State) {map : MirrorMap} (h : map = horizontalMap ∨ map = verticalMap) :
    (s.initialised map).Inv where
  mem_wf := rfl
  ready_inv _ := ⟨by simp, by simp, by simp, h, fun _ _ _ => rfl, fun _ _ => by simp [vblSet_eq]⟩

/-- Settles O46: reset is the initialised state with the HORIZONTAL map. -/
theorem invariantHoldsAtReset : Obligations.InvariantHoldsAtReset :=
  State.reset.initialised_inv (map := horizontalMap) (.inl rfl)

/-- The mapper reaches no name-table byte but the first of each region (R65). -/
theorem locate_nt_index (m : MirrorMap) (a : Word) (h : (locate m a).store = .nt) :
    (locate m a).index = 0 ∨ (locate m a).index = 1024 := by
  rw [locate_eq] at h ⊢
  split_ifs at h ⊢
  cases m.region _ <;> simp [Region.base]

/-- MapWrite leaves the unreachable name-table bytes. -/
theorem State.mapWrite_nt_read {s : State} (hwf : s.memWf = true) (a : Word) (v : Byte) {i : Nat} (h0 : i ≠ 0)
    (h1 : i ≠ 1024) : (s.mapWrite a v).nt.read i = s.nt.read i := by
  have hloc : (⟨.nt, i⟩ : Loc) ≠ locate s.mirror a := by
    intro heq
    have hindex := locate_nt_index s.mirror a (by rw [← heq])
    rw [← heq] at hindex
    exact hindex.elim h0 h1
  have hread := State.readLoc_writeLoc hwf (locate s.mirror a) ⟨.nt, i⟩ v
  rwa [if_neg hloc] at hread

/-! The vertical-blank bit and the reserved bits of `status` (R25, R26). -/

theorem clearVbl_reserved {x : Byte} (h : x &&& 0x7F#8 = 0#8) : clearVbl x &&& 0x7F#8 = 0#8 := by
  rw [clearVbl_eq, h]; rfl

theorem setVbl_reserved {x : Byte} (h : x &&& 0x7F#8 = 0#8) : setVbl x &&& 0x7F#8 = 0#8 := by
  revert x
  unfold setVbl vblMask
  decide

theorem vblSet_clearVbl (x : Byte) : vblSet (clearVbl x) = false := by
  simp [vblSet_eq, clearVbl_eq]

/-- What a new position and `status` have to meet for `ReadyInv` to hold again. -/
theorem State.ReadyInv.withTiming {s : State} (h : s.ReadyInv) {line dot : Counter} {status : Byte}
    (hstatus : status &&& 0x7F#8 = 0#8) (hline : line.toNat ≤ 261) (hdot : dot.toNat ≤ 340)
    (hvbl : 20 ≤ line.toNat → line.toNat ≤ 240 → vblSet status = false) :
    State.ReadyInv { s with scanline := line, dot := dot, status := status } :=
  ⟨hstatus, hline, hdot, h.mirror_wired, h.nt_unreachable, hvbl⟩

/-- A status read keeps `ReadyInv`: VBL clear is what the window asks for. -/
theorem State.ReadyInv.clearVbl {s : State} (h : s.ReadyInv) :
    State.ReadyInv { s with status := Machine.clearVbl s.status } :=
  h.withTiming (clearVbl_reserved h.status_reserved) h.scanline_le h.dot_le fun _ _ => vblSet_clearVbl s.status

/-- STEP keeps `ReadyInv`: the window of T8 is entered by the clear at line 20 and left by the set at line 241. -/
theorem State.ReadyInv.advanceDot {s : State} (h : s.ReadyInv) : (advanceDot s).1.ReadyInv := by
  have hreserved := h.status_reserved
  have hline := h.scanline_le
  have hdot := h.dot_le
  rcases advanceDot_cases s with ⟨hd, e⟩ | ⟨-, -, e⟩ | ⟨-, -, e⟩ | ⟨-, -, e⟩ | ⟨-, h19, h240, h261, e⟩ <;> rw [e]
  · exact h.withTiming hreserved hline (by bv_omega) h.vbl_window
  · exact h.withTiming (clearVbl_reserved hreserved) (by decide) (by decide) fun _ _ => vblSet_clearVbl s.status
  · exact h.withTiming (setVbl_reserved hreserved) (by decide) (by decide) fun _ hle => absurd hle (by decide)
  · exact h.withTiming hreserved (by decide) (by decide) fun hge => absurd hge (by decide)
  · have hvbl := h.vbl_window
    exact h.withTiming hreserved (by bv_omega) (by decide) fun hge hle => hvbl (by bv_omega) (by bv_omega)

/-- Every effect keeps the canonical form of the memories. -/
theorem effectOf_memWf {s : State} (h : s.memWf = true) (i : Instr) : (effectOf s i).1.memWf = true := by
  cases i with
  | write7 v => exact State.mapWrite_memWf s.vaddr v h
  | read2 => simp only [effectOf]; split <;> exact h
  | step => exact (advanceDot_memWf s).trans h
  | _ => exact h

/-- Every effect keeps `ReadyInv`: only a status read, a data write and STEP write what it speaks of. -/
theorem effectOf_readyInv {s : State} (hwf : s.memWf = true) (h : s.ReadyInv) (i : Instr) :
    (effectOf s i).1.ReadyInv := by
  cases i with
  | read2 =>
    simp only [effectOf]
    split
    · exact h.clearVbl
    · exact h
  | write7 v =>
    exact h.congr (s.mapWrite_status _ v) (s.mapWrite_scanline _ v) (s.mapWrite_dot _ v) (s.mapWrite_mirror _ v)
      fun _ h0 h1 => State.mapWrite_nt_read hwf _ v h0 h1
  | step => exact h.advanceDot
  | _ => exact h.congr rfl rfl rfl rfl fun _ _ _ => rfl

/-- Every operation that completes keeps the invariant. -/
theorem exec_keeps_inv {i : Instr} {s t : State} (h : s.Inv) (hexec : exec i s = .next t) : t.Inv := by
  by_cases hi : isInit i = false
  · obtain ⟨hready, rfl⟩ := exec_next hi hexec
    have heffect : (effectOf s i).1.Inv :=
      ⟨effectOf_memWf h.mem_wf i, fun _ => effectOf_readyInv h.mem_wf (h.ready_inv hready) i⟩
    exact heffect.emit i _ _
  · cases i with
    | init m =>
      obtain ⟨-, ⟨map, hmap, -, rfl⟩ | ⟨-, rfl⟩⟩ := execInit_next hexec
      · exact (s.initialised_inv ((mirrorMapOf_eq_some hmap).imp And.right And.right)).emit _ _ _
      · exact ⟨s.unspecified_memWf, nofun⟩
    | _ => exact absurd rfl hi

/-- Settles O47: an idle step changes nothing, and the others perform an operation on the rest of the input. -/
theorem invariantKeptByEveryStep : Obligations.InvariantKeptByEveryStep := by
  intro s t h hstep
  rcases step_next_cases hstep with ⟨-, rfl⟩ | ⟨w, rest, i, -, -, hexec⟩
  · exact h
  · exact exec_keeps_inv (h.withInput rest) hexec

/-! ### What no operation can observe

`SeenAlike` itself is not kept by a failed INIT, which draws every register anew (R45). What is kept is `RunsAlike`: the
registers need agree only while `life` is ready, since no operation completes on them otherwise. -/

/-- Two states agree on the registers that can show: `ctrl1` bit 7, `status` and the position. -/
structure RegistersAlike (s t : State) : Prop where
  nmi_enabled : vblankNmiEnabled s.ctrl1 = vblankNmiEnabled t.ctrl1
  status : s.status = t.status
  scanline : s.scanline = t.scanline
  dot : s.dot = t.dot

/-- The simulation relation: two states agree on `life` and the interface, and, if ready, on the registers that show. -/
structure RunsAlike (s t : State) : Prop where
  life : s.life = t.life
  input : s.input = t.input
  alloc_ok : s.allocOk = t.allocOk
  trace : s.trace = t.trace
  registers : s.life = .ready → RegistersAlike s t

/-- Two outcomes that look alike: next states in the relation, or the same refusal. -/
inductive OutcomesAlike : Outcome → Outcome → Prop where
  | next {s t : State} (h : RunsAlike s t) : OutcomesAlike (.next s) (.next t)
  | refused (r : Refusal) : OutcomesAlike (.refused r) (.refused r)

theorem SeenAlike.runsAlike {s t : State} (h : SeenAlike s t) : RunsAlike s t :=
  ⟨h.life, h.input, h.alloc_ok, h.trace, fun _ => ⟨h.nmi_enabled, h.status, h.scanline, h.dot⟩⟩

theorem RunsAlike.withInput {s t : State} (h : RunsAlike s t) (ws : List Word) :
    RunsAlike { s with input := ws } { t with input := ws } :=
  ⟨h.life, rfl, h.alloc_ok, h.trace, fun hl =>
    have ⟨hnmi, hstatus, hline, hdot⟩ := h.registers hl
    ⟨hnmi, hstatus, hline, hdot⟩⟩

/-- Completing with the same record keeps two states alike. -/
theorem RunsAlike.complete {s t : State} (h : RunsAlike s t) (i : Instr) (r : Result) (e : List Event) :
    OutcomesAlike (complete i r e s) (complete i r e t) :=
  .next ⟨h.life, h.input, h.alloc_ok, congrArg (_ :: ·) h.trace, fun hl =>
    have ⟨hnmi, hstatus, hline, hdot⟩ := h.registers hl
    ⟨hnmi, hstatus, hline, hdot⟩⟩

/-- The render hook's event depends on the position alone. -/
theorem RegistersAlike.hookEvents {s t : State} (h : RegistersAlike s t) : hookEvents s = hookEvents t := by
  simp only [Machine.hookEvents, h.scanline, h.dot]

/-- What the counters and the boundary actions write and emit depends on the registers that can show (R179). -/
theorem RegistersAlike.advanceDot {s t : State} (h : RegistersAlike s t) :
    RegistersAlike (advanceDot s).1 (advanceDot t).1 ∧ (advanceDot s).2 = (advanceDot t).2 := by
  obtain ⟨hnmi, hstatus, hline, hdot⟩ := h
  simp only [Machine.advanceDot, enterLine, hnmi, hstatus, hline, hdot]
  split_ifs <;> exact ⟨⟨hnmi, rfl, rfl, rfl⟩, rfl⟩

/-- On registers alike, an operation has effects alike, the same result and the same events (R42, R72, R125). -/
theorem RegistersAlike.effectOf {s t : State} (h : RegistersAlike s t) (i : Instr) :
    RegistersAlike (effectOf s i).1 (effectOf t i).1 ∧ (effectOf s i).2 = (effectOf t i).2 := by
  have ⟨hnmi, hstatus, hline, hdot⟩ := h
  cases i with
  | read2 =>
    refine ⟨?_, by simp only [Machine.effectOf, hstatus]⟩
    simp only [Machine.effectOf, hstatus]
    split
    · exact ⟨hnmi, rfl, hline, hdot⟩
    · exact ⟨hnmi, hstatus, hline, hdot⟩
  | write0 v => exact ⟨⟨rfl, hstatus, hline, hdot⟩, rfl⟩
  | write7 v =>
    refine ⟨?_, rfl⟩
    simp only [Machine.effectOf]
    exact ⟨by simp [hnmi], by simp [hstatus], by simp [hline], by simp [hdot]⟩
  | step => exact ⟨h.advanceDot.1, by simp only [Machine.effectOf, h.hookEvents, h.advanceDot.2]⟩
  | _ => exact ⟨⟨hnmi, hstatus, hline, hdot⟩, rfl⟩

/-- An operation other than INIT, performed in two states alike, has outcomes alike. -/
theorem RunsAlike.exec_of_not_init {s t : State} (h : RunsAlike s t) {i : Instr} (hi : isInit i = false) :
    OutcomesAlike (exec i s) (exec i t) := by
  by_cases hl : s.life = .ready
  · obtain ⟨hregs, hshown⟩ := (h.registers hl).effectOf i
    have heffect : RunsAlike (effectOf s i).1 (effectOf t i).1 :=
      ⟨by simp [h.life], by simp [h.input], by simp [h.alloc_ok], by simp [h.trace], fun _ => hregs⟩
    rw [exec_eq_effect hi, exec_eq_effect hi, whenReady_ready hl, whenReady_ready (h.life ▸ hl), hshown]
    exact heffect.complete i _ _
  · rw [exec_refused_of_not_ready hi hl, exec_refused_of_not_ready hi (h.life ▸ hl)]
    exact .refused _

/-- Two failing INITs have outcomes alike: what they draw does not show. -/
theorem RunsAlike.initFails {s t : State} (h : RunsAlike s t) (m : MirrorType) :
    OutcomesAlike (initFails m s) (initFails m t) :=
  .next ⟨rfl, h.input, h.alloc_ok, congrArg (_ :: ·) h.trace, nofun⟩

/-- Two states initialised with the same map have all registers alike. -/
theorem RunsAlike.initialised {s t : State} (h : RunsAlike s t) (map : MirrorMap) :
    RunsAlike (s.initialised map) (t.initialised map) :=
  ⟨rfl, h.input, h.alloc_ok, h.trace, fun _ => ⟨rfl, rfl, rfl, rfl⟩⟩

/-- INIT, performed in two states alike, has outcomes alike. -/
theorem RunsAlike.execInit {s t : State} (h : RunsAlike s t) (m : MirrorType) :
    OutcomesAlike (execInit m s) (execInit m t) := by
  unfold Machine.execInit
  by_cases hl : s.life = .uninit
  · rw [whenUninit_uninit hl, whenUninit_uninit (h.life ▸ hl), ← h.alloc_ok]
    cases mirrorMapOf m with
    | none => exact h.initFails m
    | some map =>
      cases s.allocOk with
      | true => exact (h.initialised map).complete _ _ _
      | false => exact h.initFails m
  · rw [whenUninit_refused hl, whenUninit_refused (h.life ▸ hl)]
    exact .refused _

theorem RunsAlike.exec {s t : State} (h : RunsAlike s t) (i : Instr) : OutcomesAlike (exec i s) (exec i t) := by
  cases i with
  | init m => exact h.execInit m
  | _ => exact h.exec_of_not_init rfl

/-- The commuting step of the simulation. -/
theorem RunsAlike.step {s t : State} (h : RunsAlike s t) : OutcomesAlike (step s) (step t) := by
  cases hin : s.input with
  | nil =>
    rw [step_idle hin, step_idle (h.input ▸ hin)]
    exact .next h
  | cons w rest =>
    have hin' : t.input = w :: rest := h.input ▸ hin
    cases hw : decode w with
    | error e =>
      rw [step_of_invalid hin hw, step_of_invalid hin' hw]
      exact .refused _
    | ok i =>
      rw [step_of_decode hin hw, step_of_decode hin' hw]
      exact (h.withInput rest).exec i

/-- Runs of any length from two states alike have outcomes alike. -/
theorem RunsAlike.run {s t : State} (h : RunsAlike s t) (k : Nat) :
    OutcomesAlike (Host.Core.run core k s) (Host.Core.run core k t) := by
  induction k generalizing s t with
  | zero => exact .next h
  | succ k ih =>
    have hstep : OutcomesAlike (core.step s) (core.step t) := h.step
    simp only [Host.Core.run]
    generalize core.step s = o at hstep ⊢
    generalize core.step t = o' at hstep ⊢
    cases hstep with
    | next h' => exact ih h'
    | refused r => exact .refused r

/-- Settles O52: by the simulation `RunsAlike`, which `SeenAlike` states are in. -/
theorem hiddenStateNeverShows : Obligations.HiddenStateNeverShows := by
  intro k s t h
  have halike := h.runsAlike.run k
  refine ⟨fun s' hs => ?_, fun r hr => ?_⟩
  · unfold runsTo at hs
    rw [hs] at halike
    generalize hout : Host.Core.run core k t = out at halike
    cases halike with
    | next h' => exact ⟨_, hout, h'.trace.symm⟩
  · rw [hr] at halike
    generalize Host.Core.run core k t = out at halike ⊢
    cases halike
    rfl

end Sys2Proof.Machine
end

