-- ==== Sys2Proof/Proofs/MemoryFamily.lean ====
section
/-! PROOFS. The statements about the mapper and its memories (`20_memory.md`): 14-bit addresses, the region table, what a
write changes, the aliasing of the name tables and of the palette; and the order in which words are performed (R80). -/

namespace Sys2Proof.Machine

/-! ### The byte an address selects (R62, R63), one rule per range -/

/-- Only the low 14 bits of an address count (R62). -/
@[simp] theorem locate_normalize (m : MirrorMap) (a : Word) : locate m (normalize a) = locate m a := by
  simp only [locate, normalize_idem]

theorem locate_pattern (m : MirrorMap) {a : Word} (h : a.toNat % 16384 < 0x2000) :
    locate m a = ⟨.pat, a.toNat % 16384⟩ := by
  rw [locate_eq, if_pos h]

theorem locate_nameTable (m : MirrorMap) {a : Word} (h : 0x2000 ≤ a.toNat % 16384) (h' : a.toNat % 16384 < 0x3F00) :
    locate m a = ⟨.nt, (m.region (Fin.ofNat 4 (a.toNat % 16384 / 1024))).base⟩ := by
  rw [locate_eq, if_neg (Nat.not_lt.2 h), if_pos h']

theorem locate_palette (m : MirrorMap) {a : Word} (h : 0x3F00 ≤ a.toNat % 16384) :
    locate m a = ⟨.pal, a.toNat % 32⟩ := by
  rw [locate_eq, if_neg (by omega), if_neg (by omega)]

theorem Region.base_eq (r : Region) : r.base = if r = .region0 then 0 else 1024 := by
  cases r <;> rfl

/-- The two regions begin at different bytes. -/
theorem Region.base_inj {r r' : Region} : r.base = r'.base ↔ r = r' := by
  cases r <;> cases r' <;> decide

/-! ### MapRead and MapWrite -/

theorem State.mapRead_normalize (s : State) (a : Word) : s.mapRead (normalize a) = s.mapRead a := by
  simp only [State.mapRead, locate_normalize]

theorem State.mapWrite_normalize (s : State) (a : Word) (v : Byte) : s.mapWrite (normalize a) v = s.mapWrite a v := by
  simp only [State.mapWrite, locate_normalize]

/-- Reading after a write goes by the bytes the two addresses select. -/
theorem State.mapRead_mapWrite {s : State} (hwf : s.memWf = true) (a b : Word) (v : Byte) :
    (s.mapWrite a v).mapRead b = if locate s.mirror b = locate s.mirror a then v else s.mapRead b := by
  unfold State.mapRead
  rw [State.mapWrite_mirror]
  exact State.readLoc_writeLoc hwf _ _ v

/-- A write of a byte leaves every field but the memories. -/
theorem State.writeLoc_frame (s : State) (l : Loc) (v : Byte) :
    { s.writeLoc l v with pat := s.pat, nt := s.nt, pal := s.pal } = s := by
  obtain ⟨store, index⟩ := l
  cases store <;> rfl

/-- Settles O19: normalising an address does not change the byte it selects. -/
theorem mapperNormalisesTo14Bits : Obligations.MapperNormalisesTo14Bits :=
  fun s a => ⟨(s.mapRead_normalize a).symm, fun v => (s.mapWrite_normalize a v).symm⟩

/-- Settles O20: by the rule for the range the address lies in. -/
theorem mapReadByRegion : Obligations.MapReadByRegion := by
  intro s a
  refine ⟨fun hpat => ?_, fun hlow hhigh => ?_, fun hpal => ?_⟩
  · rw [State.mapRead, locate_pattern _ hpat]; rfl
  · rw [State.mapRead, locate_nameTable _ hlow hhigh, Region.base_eq]; rfl
  · rw [State.mapRead, locate_palette _ hpal, Nat.mod_mod_of_dvd _ (by decide)]; rfl

/-- Settles O21: the byte of the statement is the one `locate` gives, and the rest is the rule of `writeLoc`. -/
theorem mapWriteStoresOneByte : Obligations.MapWriteStoresOneByte := by
  intro s a v hwf
  simp only [← Region.base_eq, Nat.mod_mod_of_dvd a.toNat (show 32 ∣ 16384 by decide), ← locate_eq]
  exact ⟨fun l' => State.readLoc_writeLoc hwf _ l' v, s.writeLoc_frame _ v⟩

/-! ### Name tables: one byte per slot -/

/-- The low 10 bits of a name-table address do not count (R65). -/
theorem locate_eq_of_same_slot (m : MirrorMap) {a b : Word} (ha : 0x2000 ≤ a.toNat % 16384)
    (ha' : a.toNat % 16384 < 0x3F00) (hb : 0x2000 ≤ b.toNat % 16384) (hb' : b.toNat % 16384 < 0x3F00)
    (hslot : a.toNat / 1024 % 4 = b.toNat / 1024 % 4) : locate m a = locate m b := by
  have hsame : Fin.ofNat 4 (a.toNat % 16384 / 1024) = Fin.ofNat 4 (b.toNat % 16384 / 1024) := by
    apply Fin.ext
    simp only [Fin.val_ofNat]
    omega
  rw [locate_nameTable m ha ha', locate_nameTable m hb hb', hsame]

/-- Settles O22: the two addresses select one byte, so the read sees the write. -/
theorem nameTableSlotAliasesOneByte : Obligations.NameTableSlotAliasesOneByte := by
  intro s a b v hwf ha ha' hb hb' hslot
  have hsame : locate s.mirror a = locate s.mirror b := locate_eq_of_same_slot _ ha ha' hb hb' hslot
  refine ⟨by rw [State.mapRead_mapWrite hwf, if_pos hsame.symm], hsame, ?_⟩
  rw [locate_nameTable _ ha ha']
  cases s.mirror.region _ with
  | region0 => exact .inl rfl
  | region1 => exact .inr rfl

/-! ### Mirroring: which slots share a region -/

/-- The base address of a name-table slot (R64). -/
def slotBase (i : Fin 4) : Word := BitVec.ofNat 16 (0x2000 + 1024 * i.val)

theorem locate_slotBase (m : MirrorMap) (i : Fin 4) : locate m (slotBase i) = ⟨.nt, (m.region i).base⟩ := by
  fin_cases i <;> rfl

/-- A byte written at the base of a slot is read at the base of the slots that name the same region, and no other. -/
theorem State.mapRead_mapWrite_slotBase {s : State} (hwf : s.memWf = true) (i j : Fin 4) (v : Byte) :
    (s.mapWrite (slotBase i) v).mapRead (slotBase j) =
      if s.mirror.region i = s.mirror.region j then v else s.mapRead (slotBase j) := by
  rw [State.mapRead_mapWrite hwf, locate_slotBase, locate_slotBase]
  simp only [Loc.mk.injEq, true_and, Region.base_inj, eq_comm]

/-- HORIZONTAL pairs the slots of one half (R68). -/
theorem horizontalMap_region_eq_iff (i j : Fin 4) :
    horizontalMap.region i = horizontalMap.region j ↔ i.val / 2 = j.val / 2 := by
  revert i j; decide

/-- VERTICAL pairs the slots of one parity (R69). -/
theorem verticalMap_region_eq_iff (i j : Fin 4) :
    verticalMap.region i = verticalMap.region j ↔ i.val % 2 = j.val % 2 := by
  revert i j; decide

/-- Every byte of an initialised state is 0x00 (R44). -/
theorem State.initialised_readLoc (s : State) (m : MirrorMap) (l : Loc) : (s.initialised m).readLoc l = 0x00#8 := by
  obtain ⟨store, index⟩ := l
  cases store <;> rfl

/-- An INIT that leaves `life` ready has initialised it with the map of its mode (R190). -/
theorem execInit_next_ready {m : MirrorType} {map : MirrorMap} {s t : State} (hmap : mirrorMapOf m = some map)
    (h : exec (.init m) s = .next t) (hready : t.life = .ready) :
    t = (s.initialised map).emit (.init m) (.status 0) [] := by
  obtain ⟨-, ⟨map', hmap', -, rfl⟩ | ⟨-, rfl⟩⟩ := execInit_next h
  · rw [Option.some.inj (hmap.symm.trans hmap')]
  · cases hready

/-- After a successful INIT the map of the mode is wired, a written slot shows in the slots its map pairs with it, and every
other slot reads 0x00. -/
theorem execInit_pairs_slots {m : MirrorType} {map : MirrorMap} {s t : State} (hmap : mirrorMapOf m = some map)
    (h : exec (.init m) s = .next t) (hready : t.life = .ready) (i j : Fin 4) (v : Byte) :
    t.mirror = map ∧
    (t.mapWrite (slotBase i) v).mapRead (slotBase j) = if map.region i = map.region j then v else 0x00#8 := by
  obtain rfl := execInit_next_ready hmap h hready
  refine ⟨rfl, ?_⟩
  rw [State.mapRead_mapWrite_slotBase rfl, State.mapRead, State.emit_readLoc, State.initialised_readLoc]
  rfl

/-- Settles O23: the slots that name one region, read off each map. -/
theorem mirrorModesPairSlots : Obligations.MirrorModesPairSlots := by
  intro s t v i j hready
  refine ⟨fun h => ?_, fun h => ?_⟩
  · simp only [← horizontalMap_region_eq_iff]
    exact execInit_pairs_slots rfl h hready i j v
  · simp only [← verticalMap_region_eq_iff]
    exact execInit_pairs_slots rfl h hready i j v

/-! ### The palette -/

/-- Palette addresses with one residue modulo 32 select one byte, and others different bytes (R70). -/
theorem locate_palette_eq_iff (m : MirrorMap) {a b : Word} (ha : 0x3F00 ≤ a.toNat % 16384)
    (hb : 0x3F00 ≤ b.toNat % 16384) : locate m a = locate m b ↔ a.toNat % 32 = b.toNat % 32 := by
  simp only [locate_palette m ha, locate_palette m hb, Loc.mk.injEq, true_and]

/-- Settles O24: the folded address has the same residue; a write at another residue goes to another byte. -/
theorem paletteFoldsModulo32 : Obligations.PaletteFoldsModulo32 := by
  intro s a ha
  refine ⟨?_, fun b v hwf hb hne => ?_⟩
  · have hfold : (BitVec.ofNat 16 (0x3F00 + a.toNat % 32)).toNat = 0x3F00 + a.toNat % 32 := by
      rw [BitVec.toNat_ofNat]
      omega
    have hsame : locate s.mirror a = locate s.mirror (BitVec.ofNat 16 (0x3F00 + a.toNat % 32)) :=
      (locate_palette_eq_iff _ ha (by omega)).2 (by omega)
    rw [State.mapRead, State.mapRead, hsame]
  · rw [State.mapRead_mapWrite hwf, if_neg (mt (locate_palette_eq_iff _ ha hb).1 hne)]

/-! ### The words the step performs: the fields of a packed word (R91), the round trip, the step -/

@[simp] theorem wordReserved_packWord (c : BitVec 4) (p : BitVec 3) (v : Byte) : wordReserved (packWord c p v) = false := by
  have := p.isLt
  have := v.isLt
  rw [wordReserved_eq, packWord_toNat, decide_eq_false_iff_not]
  omega

@[simp] theorem wordClass_packWord (c : BitVec 4) (p : BitVec 3) (v : Byte) : wordClass (packWord c p v) = c.toNat := by
  have := p.isLt
  have := v.isLt
  rw [wordClass_eq, packWord_toNat]
  omega

@[simp] theorem wordPort_packWord (c : BitVec 4) (p : BitVec 3) (v : Byte) : wordPort (packWord c p v) = p.toFin := by
  have := p.isLt
  have := v.isLt
  apply Fin.ext
  rw [wordPort_eq, packWord_toNat, Fin.val_ofNat, BitVec.val_toFin]
  omega

@[simp] theorem wordData_packWord (c : BitVec 4) (p : BitVec 3) (v : Byte) : wordData (packWord c p v) = v := by
  have := v.isLt
  apply BitVec.eq_of_toNat_eq
  rw [wordData_eq, packWord_toNat, BitVec.toNat_ofNat]
  omega

/-- A well-formed mirror type is the one its code names (R96). -/
theorem MirrorType.ofCode_code {m : MirrorType} (h : m.wellFormed = true) : MirrorType.ofCode m.code = m := by
  cases m with
  | unknown c =>
    have hcode : 3 ≤ c.toNat := of_decide_eq_true h
    have hne {k : Byte} (hk : k.toNat < 3) : c ≠ k := by rintro rfl; omega
    rw [MirrorType.code, MirrorType.ofCode, if_neg (hne (by decide)), if_neg (hne (by decide)), if_neg (hne (by decide))]
  | _ => rfl

/-- The word of a well-formed operation decodes to it (R93 to R96, R99). -/
theorem decode_encode {i : Instr} (h : i.wellFormed = true) : decode (encode i) = .ok i := by
  cases i with
  | init m => simp [encode, decode, MirrorType.ofCode_code (m := m) h]
  | _ => simp [encode, decode, readOf, writeOf]

/-- A table row of 16 bits stands for the word with those bits (log 28). -/
theorem tableWord_toNat (w : Word) : tableWord 16 w.toNat = w := by
  rw [tableWord, Nat.mod_eq_of_lt w.isLt, BitVec.ofNat_toNat, BitVec.setWidth_eq]

/-- Settles O44: by the rules of the step and the round trip of the word that is placed. -/
theorem stepPerformsTheOldestWord : Obligations.StepPerformsTheOldestWord := by
  refine ⟨fun s w rest i hin hw => step_of_decode hin hw, fun s hin => step_idle hin, fun s i hi => ?_⟩
  have hw : decode (tableWord 16 (encode i).toNat) = .ok i := by rw [tableWord_toNat, decode_encode hi]
  exact step_of_decode rfl hw

end Sys2Proof.Machine
end

