-- ==== Sys2Proof/Proofs/EncodingFamily.lean ====
section
/-! PROOFS. The statements about the operation word (`30_encoding.md`): the round trip of decoder and encoder, the decoder by
the word's fields, the opcode table, and the pseudo-operations. -/

namespace Sys2Proof.Machine

/-! ### Words by their fields (R91) -/

/-- Every word is its four fields, one after the other. -/
theorem word_eq_fields (w : Word) :
    ∃ (c : BitVec 4) (z : BitVec 1) (p : BitVec 3) (d : Byte), w = c ++ z ++ p ++ d := by
  refine ⟨w.extractLsb' 12 4, w.extractLsb' 11 1, w.extractLsb' 8 3, w.extractLsb' 0 8, ?_⟩
  rw [BitVec.extractLsb'_append_extractLsb'_eq_extractLsb' (show 12 = 11 + 1 from rfl),
    BitVec.extractLsb'_append_extractLsb'_eq_extractLsb' (show 11 = 8 + 3 from rfl),
    BitVec.extractLsb'_append_extractLsb'_eq_extractLsb' (show 8 = 0 + 8 from rfl), BitVec.extractLsb'_eq_self]

/-- A word with the reserved bit clear is packed from its other fields. -/
theorem exists_packWord_of_not_reserved {w : Word} (h : wordReserved w = false) :
    ∃ (c : BitVec 4) (p : BitVec 3) (d : Byte), w = packWord c p d := by
  obtain ⟨c, z, p, d, rfl⟩ := word_eq_fields w
  have hbit : wordReserved (c ++ z ++ p ++ d) = z.getLsbD 0 := by
    simp only [wordReserved, BitVec.getLsbD_append]
    rfl
  have hz : z = 0#1 := by
    rw [hbit] at h
    clear hbit
    revert z
    decide
  exact ⟨c, p, d, by rw [hz]; rfl⟩

/-! ### Operations by the class of their word (R92 to R96) -/

/-- Every operation belongs to one of the five classes. -/
theorem instr_class_cases (i : Instr) :
    (∃ p, i = readOf p) ∨ (∃ p d, i = writeOf p d) ∨ i = .step ∨ (∃ m, i = .init m) ∨ (∃ p, i = .debugRead p) := by
  cases i with
  | read0 => exact .inl ⟨0, rfl⟩
  | read1 => exact .inl ⟨1, rfl⟩
  | read2 => exact .inl ⟨2, rfl⟩
  | read3 => exact .inl ⟨3, rfl⟩
  | read4 => exact .inl ⟨4, rfl⟩
  | read5 => exact .inl ⟨5, rfl⟩
  | read6 => exact .inl ⟨6, rfl⟩
  | read7 => exact .inl ⟨7, rfl⟩
  | write0 d => exact .inr (.inl ⟨0, d, rfl⟩)
  | write1 d => exact .inr (.inl ⟨1, d, rfl⟩)
  | write2 d => exact .inr (.inl ⟨2, d, rfl⟩)
  | write3 d => exact .inr (.inl ⟨3, d, rfl⟩)
  | write4 d => exact .inr (.inl ⟨4, d, rfl⟩)
  | write5 d => exact .inr (.inl ⟨5, d, rfl⟩)
  | write6 d => exact .inr (.inl ⟨6, d, rfl⟩)
  | write7 d => exact .inr (.inl ⟨7, d, rfl⟩)
  | step => exact .inr (.inr (.inl rfl))
  | init m => exact .inr (.inr (.inr (.inl ⟨m, rfl⟩)))
  | debugRead p => exact .inr (.inr (.inr (.inr ⟨p, rfl⟩)))

@[simp] theorem encode_readOf (p : BitVec 3) : encode (readOf p.toFin) = packWord 0 p 0 := by
  revert p; decide

@[simp] theorem encode_writeOf (p : BitVec 3) (d : Byte) : encode (writeOf p.toFin d) = packWord 1 p d := by
  obtain ⟨p⟩ := p
  fin_cases p <;> rfl

@[simp] theorem wellFormed_readOf (p : Port) : (readOf p).wellFormed = true := by
  fin_cases p <;> rfl

@[simp] theorem wellFormed_writeOf (p : Port) (d : Byte) : (writeOf p d).wellFormed = true := by
  fin_cases p <;> rfl

/-- The code of the mirror type a code names is that code (R96). -/
@[simp] theorem MirrorType.code_ofCode (d : Byte) : (MirrorType.ofCode d).code = d := by
  unfold MirrorType.ofCode
  split_ifs with h0 h1 h2
  · exact h0.symm
  · exact h1.symm
  · exact h2.symm
  · rfl

/-- A code that is none of the three named ones is an unknown mode (R96). -/
@[simp] theorem MirrorType.wellFormed_ofCode (d : Byte) : (MirrorType.ofCode d).wellFormed = true := by
  unfold MirrorType.ofCode
  split_ifs with h0 h1 h2
  · rfl
  · rfl
  · rfl
  · have hcode : 3 ≤ d.toNat := by bv_omega
    exact decide_eq_true hcode

/-! ### The round trip -/

/-- Settles O30: the fields of a packed word are what it was packed from. -/
theorem decodeOfEncode : Obligations.DecodeOfEncode :=
  fun _ h => decode_encode h

/-- A word that decodes is the word of a well-formed operation, the one it decodes to: by its class, the fields that the
decoder asks to be 0 being 0 (R99). -/
theorem encode_of_decode {w : Word} {i : Instr} (h : decode w = .ok i) : encode i = w ∧ i.wellFormed = true := by
  cases hz : wordReserved w with
  | true => simp [decode, hz] at h
  | false =>
    obtain ⟨c, p, d, rfl⟩ := exists_packWord_of_not_reserved hz
    have hclass {n : Nat} (hn : c.toNat = n) : c = BitVec.ofNat 4 n := by
      rw [← hn, BitVec.ofNat_toNat, BitVec.setWidth_eq]
    simp only [decode, wordReserved_packWord, wordClass_packWord, wordPort_packWord, wordData_packWord,
      Bool.false_eq_true, if_false] at h
    split at h
    case h_1 hc => -- READ
      split_ifs at h with hd
      cases h
      rw [hclass hc, hd]
      exact ⟨encode_readOf p, wellFormed_readOf _⟩
    case h_2 hc => -- WRITE
      cases h
      rw [hclass hc]
      exact ⟨encode_writeOf p d, wellFormed_writeOf _ d⟩
    case h_3 hc => -- STEP
      split_ifs at h with hp hd
      cases h
      have hp : p = 0 := BitVec.toFin_inj.1 (not_not.1 hp)
      rw [hclass hc, hp, hd]
      exact ⟨rfl, rfl⟩
    case h_4 hc => -- INIT
      split_ifs at h with hp
      cases h
      have hp : p = 0 := BitVec.toFin_inj.1 hp
      rw [hclass hc, hp, encode, MirrorType.code_ofCode]
      exact ⟨rfl, MirrorType.wellFormed_ofCode d⟩
    case h_5 hc => -- DEBUG_READ
      split_ifs at h with hd
      cases h
      rw [hclass hc, hd]
      exact ⟨rfl, rfl⟩
    case h_6 => cases h -- reserved classes

/-- Settles O31: by the class of the word. -/
theorem encodeOfDecode : Obligations.EncodeOfDecode :=
  fun _ _ h => encode_of_decode h

/-! ### The decoder by the fields as numbers -/

theorem toOption_ite (c : Prop) [Decidable c] (i : Instr) (e : Invalid) :
    (if c then Except.ok i else Except.error e).toOption = if c then some i else none := by
  split <;> rfl

/-- The decoder's answer as a chain of tests on the class. -/
theorem decode_toOption (w : Word) :
    (decode w).toOption =
      if wordReserved w then none
      else if wordClass w = 0 then (if wordData w = 0 then some (readOf (wordPort w)) else none)
      else if wordClass w = 1 then some (writeOf (wordPort w) (wordData w))
      else if wordClass w = 2 then (if wordPort w = 0 ∧ wordData w = 0 then some .step else none)
      else if wordClass w = 3 then (if wordPort w = 0 then some (.init (.ofCode (wordData w))) else none)
      else if wordClass w = 4 then (if wordData w = 0 then some (.debugRead (wordPort w)) else none)
      else none := by
  unfold decode
  cases wordReserved w with
  | true => rfl
  | false =>
    match wordClass w with
    | 0 => exact toOption_ite _ _ _
    | 1 => rfl
    | 2 =>
      by_cases hp : wordPort w = 0
      · simp [hp, toOption_ite]
      · simp [hp, Except.toOption]
    | 3 => exact toOption_ite _ _ _
    | 4 => exact toOption_ite _ _ _
    | _ + 5 => simp [Except.toOption]

theorem wordPort_eq_ofNat_mod (w : Word) : wordPort w = Fin.ofNat 8 (w.toNat / 256 % 8) := by
  rw [wordPort_eq]
  exact Fin.ext (Nat.mod_mod _ _).symm

theorem wordPort_eq_zero_iff (w : Word) : wordPort w = 0 ↔ w.toNat / 256 % 8 = 0 := by
  rw [wordPort_eq, Fin.ext_iff]
  rfl

theorem wordData_eq_ofNat_mod (w : Word) : wordData w = BitVec.ofNat 8 (w.toNat % 256) := by
  rw [wordData_eq]
  exact BitVec.eq_of_toNat_eq (by simp)

theorem wordData_eq_zero_iff (w : Word) : wordData w = 0 ↔ w.toNat % 256 = 0 := by
  rw [wordData_eq, ← BitVec.toNat_inj, BitVec.toNat_ofNat]
  rfl

theorem wordReserved_iff (w : Word) : wordReserved w = true ↔ w.toNat / 2048 % 2 ≠ 0 := by
  rw [wordReserved_eq, decide_eq_true_iff]
  omega

/-- A step whose oldest word is Invalid is refused, whatever else the state holds (R100, log 17). -/
theorem step_of_toOption_eq_none {s : State} {w : Word} {rest : List Word} (hin : s.input = w :: rest)
    (hw : (decode w).toOption = none) : step s = .refused .reservedWord := by
  cases hd : decode w with
  | error e => exact step_of_invalid hin hd
  | ok i => rw [hd] at hw; cases hw

/-- Settles O28: the decoder's answer by its fields, each field read as a number. -/
theorem decoderFollowsFields : Obligations.DecoderFollowsFields := by
  refine ⟨fun w => ?_, fun s w rest hin hw => step_of_toOption_eq_none hin hw⟩
  simp only [decode_toOption, wordReserved_iff, wordClass_eq, wordPort_eq_zero_iff, wordData_eq_zero_iff]
  rw [wordPort_eq_ofNat_mod, wordData_eq_ofNat_mod]

/-! ### The opcode table (R99): the words each form of row covers -/

/-- A row without operands covers its pattern alone. -/
theorem OpcodeRow.covers_full_iff (pattern w : Word) :
    (⟨pattern, 0xFFFF⟩ : OpcodeRow).covers w = true ↔ w = pattern := by
  rw [OpcodeRow.covers, beq_iff_eq]
  change w &&& BitVec.allOnes 16 = pattern ↔ _
  rw [BitVec.and_allOnes]

/-- A row with a data byte covers the words that differ from its pattern in that byte. -/
theorem OpcodeRow.covers_data_iff (c : BitVec 4) (p : BitVec 3) (w : Word) :
    (⟨packWord c p 0, 0xFF00⟩ : OpcodeRow).covers w = true ↔ ∃ d, w = packWord c p d := by
  rw [OpcodeRow.covers, beq_iff_eq]
  constructor
  · obtain ⟨c', z', p', d, rfl⟩ := word_eq_fields w
    intro h
    have hhigh : (c' ++ z' ++ p') ++ 0#8 = (c ++ 0#1 ++ p) ++ 0#8 :=
      (Laws.EncodedRow.append_and_mask _ d).symm.trans h
    exact ⟨d, by rw [(BitVec.append_left_inj _).1 hhigh]; rfl⟩
  · rintro ⟨d, rfl⟩
    exact Laws.EncodedRow.packWord_and_mask c p d

/-- The mask of a row with a port drops the port field of a word and keeps the others. -/
theorem append_and_portMask (h : BitVec 5) (p : BitVec 3) (d : Byte) : (h ++ p ++ d) &&& 0xF8FF#16 = h ++ 0#3 ++ d := by
  change (h ++ p ++ d) &&& (BitVec.allOnes 5 ++ 0#3 ++ BitVec.allOnes 8) = _
  rw [BitVec.and_append, BitVec.and_append, BitVec.and_allOnes, BitVec.and_zero, BitVec.and_allOnes]

/-- A row with a port covers the words that differ from its pattern in the port field. -/
theorem OpcodeRow.covers_port_iff (c : BitVec 4) (w : Word) :
    (⟨packWord c 0 0, 0xF8FF⟩ : OpcodeRow).covers w = true ↔ ∃ p, w = packWord c p 0 := by
  rw [OpcodeRow.covers, beq_iff_eq]
  constructor
  · obtain ⟨c', z', p, d, rfl⟩ := word_eq_fields w
    intro h
    have hfields : (c' ++ z') ++ 0#3 ++ d = (c ++ 0#1) ++ 0#3 ++ 0#8 := (append_and_portMask _ p d).symm.trans h
    obtain rfl : d = 0#8 := by simpa only [BitVec.setWidth_append_eq_right] using congrArg (BitVec.setWidth 8) hfields
    have hhigh : c' ++ z' = c ++ 0#1 := (BitVec.append_left_inj _).1 ((BitVec.append_left_inj _).1 hfields)
    exact ⟨p, by rw [hhigh]; rfl⟩
  · rintro ⟨p, rfl⟩
    exact append_and_portMask (c ++ 0#1) p 0#8

/-! ### The opcode table: the row of each class of operations -/

theorem rowOf_readOf (p : Port) : rowOf (readOf p) = ⟨packWord 0 (.ofFin p) 0, 0xFFFF⟩ := by
  fin_cases p <;> rfl

theorem rowOf_writeOf (p : Port) (d : Byte) : rowOf (writeOf p d) = ⟨packWord 1 (.ofFin p) 0, 0xFF00⟩ := by
  fin_cases p <;> rfl

/-- Every operation's row is in the table. -/
theorem rowOf_mem_opcodeRows (i : Instr) : rowOf i ∈ opcodeRows := by
  obtain ⟨p, rfl⟩ | ⟨p, d, rfl⟩ | rfl | ⟨m, rfl⟩ | ⟨p, rfl⟩ := instr_class_cases i
  · revert p; decide
  · rw [rowOf_writeOf]; revert p; decide
  · decide
  · exact (show rowOf (.init .horizontal) ∈ opcodeRows by decide)
  · exact (show rowOf (.debugRead 0) ∈ opcodeRows by decide)

/-- The word of an operation belongs to its row. -/
theorem rowOf_covers_encode (i : Instr) : (rowOf i).covers (encode i) = true := by
  obtain ⟨p, rfl⟩ | ⟨p, d, rfl⟩ | rfl | ⟨m, rfl⟩ | ⟨p, rfl⟩ := instr_class_cases i
  · rw [rowOf_readOf, OpcodeRow.covers_full_iff]
    exact encode_readOf (.ofFin p)
  · rw [rowOf_writeOf, OpcodeRow.covers_data_iff]
    exact ⟨d, encode_writeOf (.ofFin p) d⟩
  · exact Laws.EncodedRow.step
  · exact Laws.EncodedRow.init m
  · exact Laws.EncodedRow.debugRead p

/-- A word that belongs to an operation's row is the word of a well-formed operation with that row. -/
theorem exists_encode_of_covers {i : Instr} {w : Word} (h : (rowOf i).covers w = true) :
    ∃ j : Instr, j.wellFormed = true ∧ encode j = w ∧ rowOf j = rowOf i := by
  obtain ⟨p, rfl⟩ | ⟨p, d, rfl⟩ | rfl | ⟨m, rfl⟩ | ⟨p, rfl⟩ := instr_class_cases i
  · rw [rowOf_readOf, OpcodeRow.covers_full_iff] at h
    exact ⟨readOf p, wellFormed_readOf p, (encode_readOf (.ofFin p)).trans h.symm, rfl⟩
  · rw [rowOf_writeOf, OpcodeRow.covers_data_iff] at h
    obtain ⟨d', rfl⟩ := h
    exact ⟨writeOf p d', wellFormed_writeOf p d', encode_writeOf (.ofFin p) d', by rw [rowOf_writeOf, rowOf_writeOf]⟩
  · exact ⟨.step, rfl, ((OpcodeRow.covers_full_iff _ w).1 h).symm, rfl⟩
  · obtain ⟨d, rfl⟩ := (OpcodeRow.covers_data_iff 3 0 w).1 h
    exact ⟨.init (.ofCode d), MirrorType.wellFormed_ofCode d, by rw [encode, MirrorType.code_ofCode], rfl⟩
  · obtain ⟨p', rfl⟩ := (OpcodeRow.covers_port_iff 4 w).1 h
    exact ⟨.debugRead p'.toFin, rfl, rfl, rfl⟩

/-- Settles O29: a row is some operation's, and what it covers is the word of an operation with the same row. -/
theorem decodeMatchesOpcodeTable : Obligations.DecodeMatchesOpcodeTable := by
  refine ⟨rfl, fun w i h => ?_, fun w r hr hcovers => ?_⟩
  · obtain ⟨rfl, -⟩ := encode_of_decode h
    exact ⟨rowOf_mem_opcodeRows i, rowOf_covers_encode i⟩
  · obtain ⟨i, -, rfl⟩ := List.mem_map.1 hr
    obtain ⟨j, hj, rfl, hrow⟩ := exists_encode_of_covers hcovers
    exact ⟨j, decode_encode hj, hrow⟩

/-- Settles O32: by evaluating the decoder. -/
theorem writtenOutWordsDecode : Obligations.WrittenOutWordsDecode :=
  ⟨rfl, rfl, rfl, rfl, rfl, rfl⟩

/-! ### Runs of assembled operations -/

/-- The state an operation other than INIT leaves, its record added to the trace. -/
def State.performed (s : State) (i : Instr) : State :=
  (effectOf s i).1.emit i (effectOf s i).2.1 (effectOf s i).2.2

theorem exec_of_ready {i : Instr} (hi : isInit i = false) {s : State} (hready : s.life = .ready) :
    exec i s = .next (s.performed i) := by
  rw [exec_eq_effect hi, whenReady_ready hready]
  rfl

/-- A ready block performs the operation whose word waits first. -/
theorem step_of_encode {s : State} {i : Instr} {rest : List Word} (hready : s.life = .ready)
    (hin : s.input = encode i :: rest) (hi : isInit i = false) (hwf : i.wellFormed = true) :
    step s = .next (State.performed { s with input := rest } i) :=
  (step_of_decode hin (decode_encode hwf)).trans (exec_of_ready hi hready)

/-- A ready block performs the two operations whose words wait first, in order. -/
theorem runsTo_pair {s : State} {i j : Instr} {rest : List Word} (hready : s.life = .ready)
    (hin : s.input = encode i :: encode j :: rest) (hi : isInit i = false) (hiwf : i.wellFormed = true)
    (hj : isInit j = false) (hjwf : j.wellFormed = true) :
    runsTo 2 s (State.performed { State.performed { s with input := encode j :: rest } i with input := rest } j) := by
  have hready' : (State.performed { s with input := encode j :: rest } i).life = .ready :=
    (effectOf_life _ i).trans hready
  have hin' : (State.performed { s with input := encode j :: rest } i).input = encode j :: rest := effectOf_input _ i
  exact runsTo_succ (step_of_encode hready hin hi hiwf)
    (runsTo_succ (step_of_encode hready' hin' hj hjwf) (runsTo_zero _))

/-- The two halves of an address, composed from the low phase, make that address and leave the toggle low (R156). -/
theorem compose_lowByte_highByte (r a : Word) : compose (compose r .low (lowByte a)).1 .high (highByte a) = (a, .low) := by
  have hlow (h : BitVec 8) : (h ++ lowByte a).extractLsb' 0 8 = lowByte a := by
    rw [← BitVec.setWidth_eq_extractLsb' (by decide), BitVec.setWidth_append_eq_right]
  have hword : highByte a ++ lowByte a = a := by
    rw [highByte, lowByte, BitVec.extractLsb'_append_extractLsb'_eq_extractLsb' (show 8 = 0 + 8 from rfl),
      BitVec.extractLsb'_eq_self]
  rw [compose_low, compose_high, hlow, hword]

/-- `setaddr A` from the low phase: `vaddr` is A, the toggle low again, and only the trace changes beside (R104). -/
theorem runsTo_setAddr {s : State} {a : Word} {rest : List Word} (hready : s.life = .ready) (hphase : s.wAddr = .low)
    (hin : s.input = (setAddr a).map encode ++ rest) :
    ∃ tr, runsTo 2 s { s with vaddr := a, input := rest, trace := tr } := by
  have hrun := runsTo_pair (i := .write6 (lowByte a)) (j := .write6 (highByte a)) hready hin rfl rfl rfl rfl
  simp only [State.performed, effectOf, State.emit, hphase, compose_snd, Phase.flip, compose_lowByte_highByte] at hrun
  rw [← hphase] at hrun
  exact ⟨_, hrun⟩

/-- `setscroll A` from the low phase: `scroll` is A, the toggle low again, and only the trace changes beside (R104). -/
theorem runsTo_setScroll {s : State} {a : Word} {rest : List Word} (hready : s.life = .ready) (hphase : s.wScroll = .low)
    (hin : s.input = assemble [.setscroll a] ++ rest) :
    ∃ tr, runsTo 2 s { s with scroll := a, input := rest, trace := tr } := by
  have hrun := runsTo_pair (i := .write5 (lowByte a)) (j := .write5 (highByte a)) hready hin rfl rfl rfl rfl
  simp only [State.performed, effectOf, State.emit, hphase, compose_snd, Phase.flip, compose_lowByte_highByte] at hrun
  rw [← hphase] at hrun
  exact ⟨_, hrun⟩

/-- `vwrite A, V` from the low phase: `setaddr A`, then the data write at A (R104). -/
theorem runsTo_vwrite {s : State} {a : Word} {v : Byte} {rest : List Word} (hready : s.life = .ready)
    (hphase : s.wAddr = .low) (hin : s.input = assemble [.vwrite a v] ++ rest) :
    ∃ tr, runsTo 3 s (State.performed { s with vaddr := a, input := rest, trace := tr } (.write7 v)) := by
  obtain ⟨tr, hrun⟩ := runsTo_setAddr (rest := encode (.write7 v) :: rest) hready hphase hin
  exact ⟨tr, runsTo_snoc hrun (step_of_encode hready rfl rfl rfl)⟩

theorem postIncrement_toNat (a : Word) (c : Byte) :
    (postIncrement a c).toNat = (a.toNat + if c.getLsbD 2 then 32 else 1) % 65536 := by
  rw [postIncrement, autoIncrement, BitVec.toNat_ofNat]

/-- What a data write leaves: the byte at the old `vaddr`, `vaddr` one increment further, the rest as before (R159). -/
theorem performed_write7 {s : State} (hwf : s.memWf = true) (v : Byte) :
    (s.performed (.write7 v)).mapRead s.vaddr = v ∧ (s.performed (.write7 v)).wAddr = s.wAddr ∧
    (s.performed (.write7 v)).input = s.input ∧
    (s.performed (.write7 v)).vaddr = postIncrement s.vaddr s.ctrl1 ∧
    ∀ l : Loc, l ≠ locate s.mirror s.vaddr → (s.performed (.write7 v)).readLoc l = s.readLoc l := by
  refine ⟨?_, s.mapWrite_wAddr _ v, s.mapWrite_input _ v, rfl, fun l hl => ?_⟩
  · exact (State.mapRead_mapWrite hwf s.vaddr s.vaddr v).trans (if_pos rfl)
  · exact (State.readLoc_writeLoc hwf _ l v).trans (if_neg hl)

/-- Settles O51: by the runs of the three pseudo-operations and the effect of the data write. -/
theorem pseudoOperationsDoWhatTheySay : Obligations.PseudoOperationsDoWhatTheySay := by
  intro s a v rest hready hwf
  refine ⟨fun hphase hin => ?_, fun hphase hin => ?_, fun hphase hin => ?_⟩
  · obtain ⟨tr, hrun⟩ := runsTo_setAddr hready hphase hin
    exact ⟨_, hrun, rfl⟩
  · obtain ⟨tr, hrun⟩ := runsTo_setScroll hready hphase hin
    exact ⟨_, hrun, rfl⟩
  · obtain ⟨tr, hrun⟩ := runsTo_vwrite hready hphase hin
    obtain ⟨hread, hlow, hinput, hvaddr, hframe⟩ :=
      performed_write7 (s := { s with vaddr := a, input := rest, trace := tr }) hwf v
    exact ⟨_, hrun, hread, hlow.trans hphase, hinput, by rw [hvaddr, postIncrement_toNat], hframe⟩

end Sys2Proof.Machine
end

