-- ==== Sys2Proof/Proofs/RegisterDecodeFamily.lean ====
section
/-! PROOFS. The statements about the decode of the control registers (`40_register_decode.md`): each field by its bit, and the
bits of `ctrl1` that no field decodes. -/

namespace Sys2Proof.Machine

/-! ### A bit of a register -/

/-- A bit of a register is the parity of the register shifted down to it. -/
theorem getLsbD_eq_decide (c : Byte) (i : Nat) : c.getLsbD i = decide (c.toNat / 2 ^ i % 2 = 1) :=
  Nat.testBit_eq_decide_div_mod_eq

/-- A choice on a bit of a register is a choice on that parity. -/
theorem ite_getLsbD {α : Type} (c : Byte) (i : Nat) (x y : α) :
    (if c.getLsbD i then x else y) = if c.toNat / 2 ^ i % 2 = 1 then x else y := by
  simp only [getLsbD_eq_decide, decide_eq_true_eq]

/-- A mask leaves the bits it has set as they are. -/
theorem getLsbD_and_of_mask (c : Byte) {m : Byte} {i : Nat} (h : m.getLsbD i = true) :
    (c &&& m).getLsbD i = c.getLsbD i := by
  rw [BitVec.getLsbD_and, h, Bool.and_true]

/-! ### decodeControl1 (R111 to R116) -/

/-- Only bits 2, 3, 4, 5 and 7 of `ctrl1` decode to anything (R116). -/
theorem decodeControl1_congr {c d : Byte} (h2 : c.getLsbD 2 = d.getLsbD 2) (h3 : c.getLsbD 3 = d.getLsbD 3)
    (h4 : c.getLsbD 4 = d.getLsbD 4) (h5 : c.getLsbD 5 = d.getLsbD 5) (h7 : c.getLsbD 7 = d.getLsbD 7) :
    decodeControl1 c = decodeControl1 d := by
  simp only [decodeControl1, autoIncrement, spritePatternBase, backgroundPatternBase, sprite8x16, vblankNmiEnabled,
    h2, h3, h4, h5, h7]

/-- Bits 1:0 and 6 of `ctrl1` change no field (R116): the mask 0xBC keeps the others. -/
theorem decodeControl1_and_mask (c : Byte) : decodeControl1 (c &&& 0xBC#8) = decodeControl1 c :=
  decodeControl1_congr (getLsbD_and_of_mask c rfl) (getLsbD_and_of_mask c rfl) (getLsbD_and_of_mask c rfl)
    (getLsbD_and_of_mask c rfl) (getLsbD_and_of_mask c rfl)

/-- Settles O26: each field is a choice on its bit or the bit itself, and the mask keeps every bit that is decoded. -/
theorem control1DecodesByBit : Obligations.Control1DecodesByBit := fun c =>
  ⟨ite_getLsbD c 2 32 1, ite_getLsbD c 3 _ _, ite_getLsbD c 4 _ _, getLsbD_eq_decide c 5, getLsbD_eq_decide c 7,
    (decodeControl1_and_mask c).symm⟩

/-! ### decodeControl2 (R117 to R123) -/

/-- Bits 7:5 as a number: nothing stands above them, so no reduction modulo 8 remains (R123). -/
theorem bgColorBits_toNat (c : Byte) : (bgColorBits c).toNat = c.toNat / 32 := by
  have hlt : c.toNat < 256 := c.isLt
  rw [bgColorBits, BitVec.extractLsb'_toNat, Nat.shiftRight_eq_div_pow]
  omega

/-- Settles O27: each flag is its raw bit, and the colour bits are the top three. -/
theorem control2DecodesByBit : Obligations.Control2DecodesByBit := fun c =>
  have hbit0 : (decodeControl2 c).monochrome = decide (c.toNat % 2 = 1) := by
    rw [← Nat.div_one c.toNat]
    exact getLsbD_eq_decide c 0
  ⟨hbit0, getLsbD_eq_decide c 1, getLsbD_eq_decide c 2, getLsbD_eq_decide c 3, getLsbD_eq_decide c 4,
    bgColorBits_toNat c⟩

end Sys2Proof.Machine
end

