-- ==== Sys2Proof/Proofs/PortReadFamily.lean ====
section
/-! PROOFS. The statements about the port reads (`41_port_read.md`): what each READ answers, and what no READ changes. Every
one goes by the effect of the READ, behind the gate of R195. -/

namespace Sys2Proof.Machine

/-! ### An operation behind its gate, and the effects of the reads -/

/-- An operation other than INIT, by its effect: recorded when `life` is ready, refused otherwise (R195). -/
theorem exec_gated_of_effect {i : Instr} {s u : State} {r : Result} {e : List Event} (hi : isInit i = false)
    (heffect : effectOf s i = (u, r, e)) :
    (s.life = .ready → exec i s = .next (u.emit i r e)) ∧ (s.life ≠ .ready → exec i s = .refused .notUsable) := by
  refine ⟨fun hready => ?_, exec_refused_of_not_ready hi⟩
  rw [exec_eq_effect hi, whenReady_ready hready, heffect, complete]

/-- The test of VBL before the clear makes no difference: a status read always leaves `status` with VBL clear (R133). -/
theorem effectOf_read2 (s : State) :
    effectOf s .read2 = ({ s with status := clearVbl s.status }, .byte s.status, []) := by
  cases hvbl : vblSet s.status with
  | true => simp only [effectOf, hvbl, if_true]
  | false => simp only [effectOf, hvbl, Bool.false_eq_true, if_false, clearVbl_of_clear hvbl]

/-- Every READ but the status read has the result 0x00, one diagnostic, and no change of state (R131, R132, R134 to R138). -/
theorem effectOf_read_of_ne_read2 (s : State) {i : Instr} (hi : isRead i = true) (hne : i ≠ .read2) :
    ∃ (k : DiagKind) (p : Port), effectOf s i = (s, .byte 0x00#8, [.diag k p]) := by
  cases i with
  | read2 => exact absurd rfl hne
  | read0 | read1 | read3 | read4 | read5 | read6 | read7 => exact ⟨_, _, rfl⟩
  | _ => cases hi

theorem isInit_of_isRead {i : Instr} (hi : isRead i = true) : isInit i = false := by
  cases i with
  | init m => cases hi
  | _ => rfl

/-- VBL is the only bit that `clearVbl` can change (R133). -/
theorem clearVbl_and_reserved (x : Byte) : clearVbl x &&& 0x7F#8 = x &&& 0x7F#8 := by
  rw [clearVbl_eq, BitVec.and_assoc, BitVec.and_self]

/-! ### The obligations -/

/-- Settles O10: the status read by its own effect, every other READ by the one the seven share. -/
theorem readsChangeOnlyVbl : Obligations.ReadsChangeOnlyVbl := by
  intro i s t hread hexec
  obtain ⟨-, rfl⟩ := exec_next (isInit_of_isRead hread) hexec
  rcases eq_or_ne i .read2 with rfl | hi
  · rw [effectOf_read2]
    exact ⟨clearVbl s.status, s.status, [], rfl, clearVbl_and_reserved s.status, fun hne => absurd rfl hne,
      fun _ => ⟨rfl, rfl⟩⟩
  · obtain ⟨k, p, heffect⟩ := effectOf_read_of_ne_read2 s hread hi
    rw [heffect]
    exact ⟨s.status, 0x00#8, [.diag k p], rfl, rfl, fun _ => ⟨rfl, rfl, k, p, rfl⟩, fun h => absurd h hi⟩

/-- Settles O7: each of the six by its word and its effect, the gate being the same for all. -/
theorem invalidReadsReturnZeroAndDiagnose : Obligations.InvalidReadsReturnZeroAndDiagnose := by
  intro x hx
  simp only [List.mem_cons, List.not_mem_nil, or_false] at hx
  rcases hx with rfl | rfl | rfl | rfl | rfl | rfl <;> exact ⟨rfl, fun s => exec_gated_of_effect rfl rfl⟩

/-- Settles O8: clearing VBL is masking with 0x7F. -/
theorem statusReadReturnsThenClearsVbl : Obligations.StatusReadReturnsThenClearsVbl :=
  ⟨rfl, fun s => exec_gated_of_effect rfl (effectOf_read2 s)⟩

/-- Settles O9: the effect of the data read is its diagnostic alone. -/
theorem dataReadIsUnimplemented : Obligations.DataReadIsUnimplemented :=
  ⟨rfl, fun _ => exec_gated_of_effect rfl rfl⟩

end Sys2Proof.Machine
end

