-- ==== Sys2Proof/Proofs/PortWriteFamily.lean ====
section
/-! PROOFS. The statements about the port writes (`42_port_write.md`): the two-phase composition as numbers, and what each
WRITE stores, emits and leaves unchanged. Every WRITE goes by its effect, behind the gate of R195. -/

namespace Sys2Proof.Machine

/-! ### The words of the writes -/

/-- The word of WRITE(p, d) as a number (R94). -/
theorem encode_writeOf_toNat (p : Port) (d : Byte) : (encode (writeOf p d)).toNat = 4096 + p.val * 256 + d.toNat := by
  rw [show encode (writeOf p d) = packWord 1 (.ofFin p) d from encode_writeOf (.ofFin p) d, packWord_toNat]
  rfl

/-! ### Two-phase composition (R156) -/

/-- Two bytes make a 16-bit word, the first its high half. -/
theorem append_byte_toNat (high low : Byte) : (high ++ low).toNat = high.toNat * 256 + low.toNat := by
  rw [BitVec.toNat_append, ← Nat.shiftLeft_add_eq_or_of_lt low.isLt, Nat.shiftLeft_eq]

/-- Settles O15: the composed word is two bytes, one of them a half of the old word. -/
theorem composeFillsHalfByPhase : Obligations.ComposeFillsHalfByPhase := by
  intro r b
  have hhigh : (r.extractLsb' 8 8).toNat = r.toNat / 256 := by
    have hlt : r.toNat < 65536 := r.isLt
    rw [BitVec.extractLsb'_toNat, Nat.shiftRight_eq_div_pow]
    omega
  have hlow : (r.extractLsb' 0 8).toNat = r.toNat % 256 := BitVec.extractLsb'_toNat 0 8 r
  rw [compose_low, compose_high, append_byte_toNat, append_byte_toNat, hhigh, hlow]
  exact ⟨⟨rfl, rfl⟩, rfl, rfl⟩

/-! ### Ports 5 and 6 (R157, R158) -/

/-- WRITE port 5 stores what the composition gives. -/
theorem effectOf_write5 {s : State} {v : Byte} {t : Phase} {c : Word × Phase} (ht : s.wScroll = t)
    (hc : compose s.scroll t v = c) :
    effectOf s (.write5 v) = ({ s with scroll := c.1, wScroll := c.2 }, .nothing, []) := by
  rw [effectOf, ht, hc]

/-- WRITE port 6 stores what the composition gives. -/
theorem effectOf_write6 {s : State} {v : Byte} {t : Phase} {c : Word × Phase} (ht : s.wAddr = t)
    (hc : compose s.vaddr t v = c) :
    effectOf s (.write6 v) = ({ s with vaddr := c.1, wAddr := c.2 }, .nothing, []) := by
  rw [effectOf, ht, hc]

/-- Settles O16: the effect of either port, with the composition of the phase its toggle is in. -/
theorem scrollAndAddressWritesAreTwoPhase : Obligations.ScrollAndAddressWritesAreTwoPhase := by
  intro v
  refine ⟨encode_writeOf_toNat 5 v, encode_writeOf_toNat 6 v, fun s => ⟨fun hready => ⟨?_, ?_, ?_, ?_⟩, fun hlife => ?_⟩⟩
  · exact fun ht => (exec_gated_of_effect rfl (effectOf_write5 ht (compose_low s.scroll v))).1 hready
  · exact fun ht => (exec_gated_of_effect rfl (effectOf_write5 ht (compose_high s.scroll v))).1 hready
  · exact fun ht => (exec_gated_of_effect rfl (effectOf_write6 ht (compose_low s.vaddr v))).1 hready
  · exact fun ht => (exec_gated_of_effect rfl (effectOf_write6 ht (compose_high s.vaddr v))).1 hready
  · exact ⟨exec_refused_of_not_ready rfl hlife, exec_refused_of_not_ready rfl hlife⟩

/-! ### Port 7 (R159) -/

/-- A data write changes `vaddr`, the memories and the trace, and no other field. -/
theorem performed_write7_frame (s : State) (v : Byte) :
    { s.performed (.write7 v) with
      vaddr := s.vaddr, pat := s.pat, nt := s.nt, pal := s.pal, trace := s.trace } = s :=
  congrArg (fun u : State => { u with vaddr := s.vaddr, trace := s.trace })
    (s.writeLoc_frame (locate s.mirror s.vaddr) v)

/-- Settles O18: what a data write leaves (`performed_write7`), and the frame of its fields. -/
theorem dataWriteFrame : Obligations.DataWriteFrame := by
  intro v s hwf hready
  obtain ⟨hread, -, -, -, hbytes⟩ := performed_write7 hwf v
  have hmirror : (s.performed (.write7 v)).mirror = s.mirror := effectOf_mirror s (.write7 v)
  rw [State.mapRead, hmirror] at hread
  exact ⟨_, exec_of_ready rfl hready, hread, hbytes, performed_write7_frame s v⟩

/-- The state a data write leaves is MapWrite at the old `vaddr`, with the increment and the record. -/
theorem performed_write7_eq (s : State) (v : Byte) :
    s.performed (.write7 v) =
      { s.mapWrite s.vaddr v with
        vaddr := postIncrement s.vaddr s.ctrl1
        trace := ⟨.write7 v, .nothing, []⟩ :: s.trace } := by
  simp only [State.performed, effectOf, State.emit, State.mapWrite_trace]

/-- Settles O17: the state a data write leaves, with the increment as a number. -/
theorem dataWriteStoresThenIncrements : Obligations.DataWriteStoresThenIncrements := fun v =>
  ⟨encode_writeOf_toNat 7 v, fun s =>
    ⟨fun hready => ⟨_, exec_of_ready rfl hready, postIncrement_toNat s.vaddr s.ctrl1, performed_write7_eq s v⟩,
      exec_refused_of_not_ready rfl⟩⟩

/-! ### Ports 0 to 4 (R151 to R155) -/

/-- Settles O13: the effect of either port is the assignment alone. -/
theorem controlWritesAssignTheByte : Obligations.ControlWritesAssignTheByte := by
  intro v
  refine ⟨encode_writeOf_toNat 0 v, encode_writeOf_toNat 1 v, fun s => ?_⟩
  obtain ⟨hdone0, hrefused0⟩ := exec_gated_of_effect (s := s) (i := .write0 v) rfl rfl
  obtain ⟨hdone1, hrefused1⟩ := exec_gated_of_effect (s := s) (i := .write1 v) rfl rfl
  exact ⟨fun hready => ⟨hdone0 hready, hdone1 hready⟩, fun hlife => ⟨hrefused0 hlife, hrefused1 hlife⟩⟩

/-- Settles O14: the effect of each of the three ports is its diagnostic alone. -/
theorem unimplementedWritesOnlyDiagnose : Obligations.UnimplementedWritesOnlyDiagnose := by
  intro v x hx
  simp only [List.mem_cons, List.not_mem_nil, or_false] at hx
  rcases hx with rfl | rfl | rfl
  · exact ⟨encode_writeOf_toNat 2 v, fun _ => exec_gated_of_effect rfl rfl⟩
  · exact ⟨encode_writeOf_toNat 3 v, fun _ => exec_gated_of_effect rfl rfl⟩
  · exact ⟨encode_writeOf_toNat 4 v, fun _ => exec_gated_of_effect rfl rfl⟩

end Sys2Proof.Machine
end

