-- ==== Sys2Proof/Proofs/TimingFamily.lean ====
section
/-! PROOFS. The statements about the timing state machine (`43_timing.md`): what one STEP does by the position, and what a
run of STEPs adds up to. A run is described by the position as one number below 341 × 262 (R180): each STEP adds one to it,
and the events and the changes of VBL happen at fixed numbers. -/

namespace Sys2Proof.Machine

/-! ### One STEP, by the position -/

theorem advanceDot_within_line {s : State} (h : s.dot ≠ 340) : advanceDot s = ({ s with dot := s.dot + 1 }, []) := by
  simpa only [ne_eq, h, not_false_eq_true, true_and, false_and, or_false] using advanceDot_cases s

theorem advanceDot_into_line20 {s : State} (hdot : s.dot = 340) (hline : s.scanline = 19) :
    advanceDot s = ({ s with dot := 0, scanline := 20, status := clearVbl s.status }, []) := by
  simpa [hdot, hline] using advanceDot_cases s

theorem advanceDot_into_line241 {s : State} (hdot : s.dot = 340) (hline : s.scanline = 240) :
    advanceDot s = ({ s with dot := 0, scanline := 241, status := setVbl s.status },
      if vblankNmiEnabled s.ctrl1 then [.nmiRequest] else []) := by
  simpa [hdot, hline] using advanceDot_cases s

theorem advanceDot_into_line0 {s : State} (hdot : s.dot = 340) (hline : s.scanline = 261) :
    advanceDot s = ({ s with dot := 0, scanline := 0 }, [.frameDone]) := by
  simpa [hdot, hline] using advanceDot_cases s

theorem advanceDot_into_other_line {s : State} (hdot : s.dot = 340) (h19 : s.scanline ≠ 19) (h240 : s.scanline ≠ 240)
    (h261 : s.scanline ≠ 261) : advanceDot s = ({ s with dot := 0, scanline := s.scanline + 1 }, []) := by
  simpa only [ne_eq, hdot, h19, h240, h261, not_true_eq_false, not_false_eq_true, true_and, false_and, false_or]
    using advanceDot_cases s

/-- The effect of STEP within a line: the hook's event alone. -/
theorem effectOf_step_within_line {s : State} (h : s.dot ≠ 340) :
    effectOf s .step = ({ s with dot := s.dot + 1 }, .nothing, hookEvents s) := by
  rw [effectOf, advanceDot_within_line h, List.append_nil]

/-- The effect of STEP at the end of a line: what entering the next one does, without a hook. -/
theorem effectOf_step_line_end {s t : State} {e : List Event} (hdot : s.dot = 340) (h : advanceDot s = (t, e)) :
    effectOf s .step = (t, .nothing, e) := by
  rw [effectOf, h, hookEvents_last_dot hdot, List.nil_append]

/-- Settles O33: the effect of STEP in the five cases of the position, behind the gate of R195. -/
theorem stepByPosition : Obligations.StepByPosition := by
  refine ⟨rfl, fun s => ⟨exec_refused_of_not_ready rfl, fun hready => ⟨?_, ?_, ?_, ?_, ?_⟩⟩⟩
  · exact fun hdot => (exec_gated_of_effect rfl (effectOf_step_within_line hdot)).1 hready
  · exact fun hdot h19 h240 h261 => (exec_gated_of_effect rfl
      (effectOf_step_line_end hdot (advanceDot_into_other_line hdot h19 h240 h261))).1 hready
  · exact fun hdot hline => (exec_gated_of_effect rfl
      (effectOf_step_line_end hdot (advanceDot_into_line20 hdot hline))).1 hready
  · exact fun hdot hline => (exec_gated_of_effect rfl
      (effectOf_step_line_end hdot (advanceDot_into_line241 hdot hline))).1 hready
  · exact fun hdot hline => (exec_gated_of_effect rfl
      (effectOf_step_line_end hdot (advanceDot_into_line0 hdot hline))).1 hready

/-- Settles O35: the effect of entering line 241, and the flags by their closed form. -/
theorem enteringLine241SetsVblAndRequests : Obligations.EnteringLine241SetsVblAndRequests := by
  intro s flags hready hline hdot
  have hmem : Event.nmiRequest ∈ (if s.ctrl1.getLsbD 7 then [Event.nmiRequest] else []) ↔ s.ctrl1.getLsbD 7 = true := by
    cases s.ctrl1.getLsbD 7 <;> simp
  refine ⟨_, _, (exec_gated_of_effect rfl
    (effectOf_step_line_end hdot (advanceDot_into_line241 hdot hline))).1 hready, rfl, rfl, rfl, rfl, hmem, ?_⟩
  rw [irqFlagsAfter_eq]
  exact if_congr hmem rfl rfl

/-! ### What STEP does to `status` -/

/-- VBL after a STEP: clear on entering line 20, set on entering line 241, as before otherwise (R174, R175). -/
theorem advanceDot_vbl (s : State) :
    (advanceDot s).1.status.getLsbD 7 =
      if s.dot = 340 ∧ s.scanline = 19 then false
      else if s.dot = 340 ∧ s.scanline = 240 then true
      else s.status.getLsbD 7 := by
  rcases advanceDot_cases s with ⟨hd, e⟩ | ⟨hd, hl, e⟩ | ⟨hd, hl, e⟩ | ⟨hd, hl, e⟩ | ⟨-, h19, h240, -, e⟩ <;> rw [e]
  · rw [if_neg fun h => hd h.1, if_neg fun h => hd h.1]
  · simp [hd, hl, clearVbl_eq]
  · simp [hd, hl, setVbl_eq]
  · simp [hd, hl]
  · rw [if_neg fun h => h19 h.2, if_neg fun h => h240 h.2]

theorem setVbl_and_reserved (x : Byte) : setVbl x &&& 0x7F#8 = x &&& 0x7F#8 := by
  revert x
  unfold setVbl vblMask
  decide

/-- STEP changes no bit of `status` but VBL (R26). -/
theorem advanceDot_reserved (s : State) : (advanceDot s).1.status &&& 0x7F#8 = s.status &&& 0x7F#8 := by
  rcases advanceDot_cases s with ⟨-, e⟩ | ⟨-, -, e⟩ | ⟨-, -, e⟩ | ⟨-, -, e⟩ | ⟨-, -, -, -, e⟩ <;> rw [e]
  · exact clearVbl_and_reserved s.status
  · exact setVbl_and_reserved s.status

/-- Only a status read and STEP write `status` (R25). -/
theorem effectOf_status {i : Instr} (hread : i ≠ .read2) (hstep : i ≠ .step) (s : State) :
    (effectOf s i).1.status = s.status := by
  cases i with
  | read2 => exact absurd rfl hread
  | step => exact absurd rfl hstep
  | write7 v => exact s.mapWrite_status s.vaddr v
  | _ => rfl

/-- Settles O34: the STEP that enters line 20 by its effect; of the rest, a STEP by what it does to VBL, and no other
operation writes `status`. -/
theorem vblClearedOnlyAtLine20OrByStatusRead : Obligations.VblClearedOnlyAtLine20OrByStatusRead := by
  refine ⟨fun s hready hline hdot => ?_, fun i s t hi hexec hset hclear => ?_⟩
  · exact ⟨_, (exec_gated_of_effect rfl
      (effectOf_step_line_end hdot (advanceDot_into_line20 hdot hline))).1 hready, rfl, rfl, rfl, rfl⟩
  · obtain ⟨-, rfl⟩ := exec_next hi hexec
    rw [State.emit_status] at hclear
    by_cases hread : i = .read2
    · exact .inl hread
    · by_cases hstep : i = .step
      · subst hstep
        rw [effectOf, advanceDot_vbl, hset] at hclear
        split_ifs at hclear with h20
        exact .inr ⟨rfl, h20.2, h20.1⟩
      · rw [effectOf_status hread hstep, hset] at hclear
        cases hclear

/-- The state a STEP leaves: the position, `status` and the trace change, and nothing else (R179). -/
theorem performed_step_frame (s : State) :
    s.performed .step =
      { s with
        scanline := (s.performed .step).scanline
        dot := (s.performed .step).dot
        status := (s.performed .step).status
        trace := (s.performed .step).trace } :=
  congrArg (fun u : State => { u with trace := (s.performed .step).trace }) (advanceDot_frame s)

/-- Settles O38: by the frame of STEP, and by the registers it depends on. -/
theorem stepTouchesOnlyTimingAndVbl : Obligations.StepTouchesOnlyTimingAndVbl := by
  refine ⟨fun s t hexec => ?_, fun s s' t hexec hlife hline hdot hstatus hnmi => ?_⟩
  · obtain ⟨-, rfl⟩ := exec_next rfl hexec
    exact ⟨performed_step_frame s, advanceDot_reserved s⟩
  · obtain ⟨hready, rfl⟩ := exec_next rfl hexec
    have halike : RegistersAlike s' s := ⟨hnmi, hstatus, hline, hdot⟩
    obtain ⟨hregs, hshown⟩ := halike.effectOf .step
    exact ⟨_, exec_of_ready rfl (hlife.trans hready), hregs.scanline, hregs.dot, hregs.status,
      congrArg (fun x : Result × List Event => some (Record.mk .step x.1 x.2)) hshown⟩

/-! ### The position as a number

The boundaries with an action are the last dots of lines 19, 240 and 261: the numbers 6819, 82180 and 89341. -/

/-- The timing position as one number, counted from (0, 0) (R180). -/
def State.position (s : State) : Nat := s.scanline.toNat * 341 + s.dot.toNat

/-- The position is in range (R33). -/
structure State.InFrame (s : State) : Prop where
  scanline_le : s.scanline.toNat ≤ 261
  dot_le : s.dot.toNat ≤ 340

/-- The number of the last dot of a line. -/
theorem State.InFrame.position_eq_line_end {s : State} (h : s.InFrame) (line : Counter) {n : Nat}
    (hn : n = line.toNat * 341 + 340) : s.position = n ↔ s.dot = 340 ∧ s.scanline = line := by
  have hdot := h.dot_le
  rw [State.position, hn]
  bv_omega

/-- The hook's window (R171), as numbers. -/
theorem State.InFrame.position_visible {s : State} (h : s.InFrame) :
    s.scanline.toNat < 240 ∧ s.dot.toNat < 256 ↔ s.position < 81840 ∧ s.position % 341 < 256 := by
  have hdot := h.dot_le
  simp only [State.position]
  omega

theorem State.InFrame.position_lt {s : State} (h : s.InFrame) : s.position < 89342 := by
  have hline := h.scanline_le
  have hdot := h.dot_le
  simp only [State.position]
  omega

/-- A STEP leads from a position in range to the next one, modulo the positions of a frame (R180). -/
theorem State.InFrame.advanceDot {s : State} (h : s.InFrame) :
    (advanceDot s).1.InFrame ∧ (advanceDot s).1.position = (s.position + 1) % 89342 := by
  obtain ⟨hline, hdot⟩ := h
  rcases advanceDot_cases s with ⟨hd, e⟩ | ⟨hd, hl, e⟩ | ⟨hd, hl, e⟩ | ⟨hd, hl, e⟩ | ⟨hd, -, -, h261, e⟩ <;>
    simp only [e, State.position]
  · exact ⟨⟨hline, by bv_omega⟩, by bv_omega⟩
  · exact ⟨⟨by simp, by simp⟩, by simp [hd, hl]⟩
  · exact ⟨⟨by simp, by simp⟩, by simp [hd, hl]⟩
  · exact ⟨⟨by simp, by simp⟩, by simp [hd, hl]⟩
  · exact ⟨⟨by bv_omega, by simp⟩, by bv_omega⟩

/-! ### Runs of STEPs -/

/-- The state after `k` STEPs, whatever waits in the input: `runsTo_afterSteps` says that it is what they lead to. -/
def State.afterSteps (s : State) : Nat → State
  | 0 => s
  | k + 1 => (s.afterSteps k).performed .step

/-- STEP does not look at the input. -/
theorem performed_step_withInput (s : State) (ws : List Word) :
    State.performed { s with input := ws } .step = { s.performed .step with input := ws } := by
  simp only [State.performed, effectOf, State.emit, hookEvents, advanceDot, enterLine]
  split_ifs <;> rfl

@[simp] theorem State.afterSteps_life (s : State) (k : Nat) : (s.afterSteps k).life = s.life := by
  induction k with
  | zero => rfl
  | succ k ih => exact (effectOf_life _ .step).trans ih

/-- The last of `k + 1` STEP words, taken to the rest of the input. -/
theorem stepWords_succ (k : Nat) (rest : List Word) :
    stepWords (k + 1) rest = stepWords k (encode .step :: rest) := by
  rw [stepWords, stepWords, List.replicate_succ', List.append_assoc]
  rfl

/-- `k` STEP words lead a ready block to the state after `k` STEPs, with the rest of the input still waiting. -/
theorem runsTo_afterSteps {s : State} (hready : s.life = .ready) (k : Nat) {rest : List Word}
    (hin : s.input = stepWords k rest) : runsTo k s { s.afterSteps k with input := rest } := by
  induction k generalizing rest with
  | zero =>
    obtain rfl : s.input = rest := hin
    exact runsTo_zero s
  | succ k ih =>
    have hrun := ih (hin.trans (stepWords_succ k rest))
    have hstep := step_of_encode (s := { s.afterSteps k with input := encode .step :: rest })
      ((s.afterSteps_life k).trans hready) rfl rfl rfl
    have hstate : State.performed { s.afterSteps k with input := rest } .step =
        { s.afterSteps (k + 1) with input := rest } := performed_step_withInput _ rest
    exact runsTo_snoc hrun (hstep.trans (congrArg _ hstate))

theorem State.InFrame.afterSteps {s : State} (h : s.InFrame) (k : Nat) : (s.afterSteps k).InFrame := by
  induction k with
  | zero => exact h
  | succ k ih =>
    obtain ⟨hline, hdot⟩ := ih.advanceDot.1
    exact ⟨hline, hdot⟩

theorem State.InFrame.afterSteps_position {s : State} (h : s.InFrame) (k : Nat) :
    (s.afterSteps k).position = (s.position + k) % 89342 := by
  induction k with
  | zero => rw [State.afterSteps, Nat.add_zero, Nat.mod_eq_of_lt h.position_lt]
  | succ k ih =>
    have hnext : (s.afterSteps (k + 1)).position = ((s.afterSteps k).position + 1) % 89342 :=
      (h.afterSteps k).advanceDot.2
    rw [hnext, ih]
    omega

/-- A run of STEPs writes the position, `status` and the trace only (R181). -/
theorem State.afterSteps_frame (s : State) (k : Nat) :
    s.afterSteps k =
      { s with
        scanline := (s.afterSteps k).scanline
        dot := (s.afterSteps k).dot
        status := (s.afterSteps k).status
        trace := (s.afterSteps k).trace } := by
  induction k with
  | zero => rfl
  | succ k ih =>
    exact (performed_step_frame (s.afterSteps k)).trans (congrArg (fun u : State =>
      { u with
        scanline := (s.afterSteps (k + 1)).scanline
        dot := (s.afterSteps (k + 1)).dot
        status := (s.afterSteps (k + 1)).status
        trace := (s.afterSteps (k + 1)).trace }) ih)

theorem State.afterSteps_reserved (s : State) (k : Nat) : (s.afterSteps k).status &&& 0x7F#8 = s.status &&& 0x7F#8 := by
  induction k with
  | zero => rfl
  | succ k ih => exact (advanceDot_reserved (s.afterSteps k)).trans ih

/-- Settles O48: by the state after `k` STEPs, its position read back as line and dot. -/
theorem runOfStepsReachesPosition : Obligations.RunOfStepsReachesPosition := by
  intro k s rest hready hline hdot hin
  have hframe : s.InFrame := ⟨hline, hdot⟩
  have hpos := hframe.afterSteps_position k
  have hdot' := (hframe.afterSteps k).dot_le
  simp only [State.position] at hpos
  refine ⟨_, runsTo_afterSteps hready k hin, ?_, ?_, ?_, s.afterSteps_reserved k⟩
  · change (s.afterSteps k).scanline.toNat = _
    omega
  · change (s.afterSteps k).dot.toNat = _
    omega
  · exact congrArg (fun u : State => { u with input := rest }) (s.afterSteps_frame k)

/-! ### The duration of VBL -/

/-- VBL after one more STEP, by the number of the position it starts from. -/
theorem State.InFrame.afterSteps_vbl {s : State} (h : s.InFrame) (k : Nat) :
    (s.afterSteps (k + 1)).status.getLsbD 7 =
      if (s.position + k) % 89342 = 6819 then false
      else if (s.position + k) % 89342 = 82180 then true
      else (s.afterSteps k).status.getLsbD 7 := by
  have hclear := (h.afterSteps k).position_eq_line_end 19 (n := 6819) rfl
  have hset := (h.afterSteps k).position_eq_line_end 240 (n := 82180) rfl
  rw [h.afterSteps_position] at hclear hset
  rw [if_congr hclear rfl (if_congr hset rfl rfl)]
  exact advanceDot_vbl (s.afterSteps k)

/-- From the STEP that enters line 241 on, VBL stays set for 13981 positions. -/
theorem State.InFrame.vbl_stays_set {s : State} (hframe : s.InFrame) (hpos : s.position = 82180) {k : Nat}
    (hk : k ≤ 13980) : (s.afterSteps (k + 1)).status.getLsbD 7 = true := by
  induction k with
  | zero => rw [hframe.afterSteps_vbl, hpos]; rfl
  | succ k ih => rw [hframe.afterSteps_vbl, if_neg (by omega), ih (by omega), ite_self]

/-- Settles O50: VBL lasts up to position (19, 340), and the STEP from there clears it. -/
theorem vblLastsFromLine241ToLine20 : Obligations.VblLastsFromLine241ToLine20 := by
  intro k s rest hready hline hdot hk hle hin
  have hframe : s.InFrame := ⟨by rw [hline]; decide, by rw [hdot]; decide⟩
  have hpos : s.position = 82180 := by rw [State.position, hline, hdot]; rfl
  obtain ⟨k, rfl⟩ := Nat.exists_eq_add_of_le' hk
  refine ⟨_, runsTo_afterSteps hready (k + 1) hin, ?_⟩
  change (s.afterSteps (k + 1)).status.getLsbD 7 = _
  by_cases hlast : k ≤ 13980
  · rw [hframe.vbl_stays_set hpos hlast, decide_eq_true (by omega)]
  · rw [hframe.afterSteps_vbl, hpos, if_pos (by omega), decide_eq_false (by omega)]

/-! ### The events of a frame -/

/-- The signals of a STEP by the position: the request on entering line 241, FrameDone on leaving line 261 (R175,
R176). -/
theorem advanceDot_events (s : State) :
    (advanceDot s).2 =
      if s.dot = 340 ∧ s.scanline = 240 then (if vblankNmiEnabled s.ctrl1 then [.nmiRequest] else [])
      else if s.dot = 340 ∧ s.scanline = 261 then [.frameDone]
      else [] := by
  rcases advanceDot_cases s with ⟨hd, e⟩ | ⟨hd, hl, e⟩ | ⟨hd, hl, e⟩ | ⟨hd, hl, e⟩ | ⟨-, -, h240, h261, e⟩ <;> rw [e]
  · rw [if_neg fun h => hd h.1, if_neg fun h => hd h.1]
  · simp [hd, hl]
  · simp [hd, hl]
  · simp [hd, hl]
  · rw [if_neg fun h => h240 h.2, if_neg fun h => h261 h.2]

/-- The events of a STEP by the number of its position. -/
theorem State.InFrame.step_events {s : State} (h : s.InFrame) :
    (effectOf s .step).2.2 =
      (if s.position < 81840 ∧ s.position % 341 < 256 then [.renderHook s.scanline s.dot] else []) ++
      if s.position = 82180 then (if vblankNmiEnabled s.ctrl1 then [.nmiRequest] else [])
      else if s.position = 89341 then [.frameDone]
      else [] := by
  have hset := h.position_eq_line_end 240 (n := 82180) rfl
  have hwrap := h.position_eq_line_end 261 (n := 89341) rfl
  rw [← if_congr h.position_visible rfl rfl, if_congr hset rfl (if_congr hwrap rfl rfl)]
  exact congrArg (hookEvents s ++ ·) (advanceDot_events s)

/-- The records of `k` STEPs, newest first: what they add to the trace (`afterSteps_trace`). -/
def State.stepRecords (s : State) : Nat → List Record
  | 0 => []
  | k + 1 => ⟨.step, .nothing, (effectOf (s.afterSteps k) .step).2.2⟩ :: s.stepRecords k

theorem State.afterSteps_trace (s : State) (k : Nat) : (s.afterSteps k).trace = s.stepRecords k ++ s.trace := by
  induction k with
  | zero => rfl
  | succ k ih => exact congrArg (_ :: ·) ((effectOf_trace _ .step).trans ih)

theorem State.stepRecords_length (s : State) (k : Nat) : (s.stepRecords k).length = k := by
  induction k with
  | zero => rfl
  | succ k ih => rw [State.stepRecords, List.length_cons, ih]

/-- The calls of the hook in a STEP, by the number of its position (R171). -/
theorem State.InFrame.step_renderHooks {s : State} (h : s.InFrame) :
    (effectOf s .step).2.2.countP Event.isRenderHook =
      if s.position < 81840 ∧ s.position % 341 < 256 then 1 else 0 := by
  rw [h.step_events]
  split_ifs <;> rfl

/-- FrameDone in a STEP, by the number of its position (R176). -/
theorem State.InFrame.step_frameDone {s : State} (h : s.InFrame) :
    (effectOf s .step).2.2.count .frameDone = if s.position = 89341 then 1 else 0 := by
  rw [h.step_events]
  by_cases hset : s.position = 82180
  · rw [if_pos hset, if_neg (show s.position ≠ 89341 by omega)]
    split_ifs <;> rfl
  · rw [if_neg hset]
    split_ifs <;> rfl

/-- The request in a STEP, by the number of its position and the interrupt enable (R175). -/
theorem State.InFrame.step_nmiRequest {s : State} (h : s.InFrame) :
    (effectOf s .step).2.2.count .nmiRequest =
      if s.position = 82180 ∧ vblankNmiEnabled s.ctrl1 = true then 1 else 0 := by
  rw [h.step_events]
  by_cases hset : s.position = 82180
  · simp only [hset, true_and, if_true]
    split_ifs <;> rfl
  · simp only [hset, false_and, if_false]
    split_ifs <;> rfl

/-! ### Counting over a run, and over a frame -/

section
variable {s : State} {q : Event → Bool} {P : Nat → Prop} [DecidablePred P]

/-- Events of a kind that a STEP emits once at the positions where `P` holds, and never elsewhere, are counted in a run by
the positions its STEPs start from. -/
theorem State.InFrame.countP_run (hframe : s.InFrame)
    (hq : ∀ k, (effectOf (s.afterSteps k) .step).2.2.countP q = if P (s.afterSteps k).position then 1 else 0)
    (k : Nat) :
    (eventsOf (s.stepRecords k)).countP q =
      ((Finset.Ico s.position (s.position + k)).filter fun n => P (n % 89342)).card := by
  induction k with
  | zero => simp [State.stepRecords, eventsOf]
  | succ k ih =>
    have hcons : eventsOf (s.stepRecords (k + 1)) =
        (effectOf (s.afterSteps k) .step).2.2 ++ eventsOf (s.stepRecords k) := rfl
    rw [hcons, List.countP_append, ih, hq, hframe.afterSteps_position, Finset.card_filter, Finset.card_filter,
      ← Nat.add_assoc, Finset.sum_Ico_succ_top (Nat.le_add_right _ _), Nat.add_comm]

/-- The STEPs of a frame, from whatever position in range, start once from each position. -/
theorem State.InFrame.countP_frame (hframe : s.InFrame)
    (hq : ∀ k, (effectOf (s.afterSteps k) .step).2.2.countP q = if P (s.afterSteps k).position then 1 else 0) :
    (eventsOf (s.stepRecords 89342)).countP q = ((Finset.range 89342).filter P).card := by
  have hperiodic : Function.Periodic (fun n => P (n % 89342)) 89342 := fun n => by
    simp only [Nat.add_mod_right]
  rw [hframe.countP_run hq, Nat.filter_Ico_card_eq_of_periodic _ _ _ hperiodic, Nat.count_eq_card_filter_range]
  refine congrArg Finset.card (Finset.filter_congr fun n hn => ?_)
  rw [Nat.mod_eq_of_lt (Finset.mem_range.1 hn)]

end

/-- Every line has 256 dots in the hook's window. -/
theorem count_visible_dots (lines : Nat) : Nat.count (fun n => n % 341 < 256) (341 * lines) = 256 * lines := by
  have hline : (Finset.range 341).filter (fun n => n % 341 < 256) = Finset.range 256 := by
    ext n
    simp only [Finset.mem_filter, Finset.mem_range]
    omega
  induction lines with
  | zero => rfl
  | succ lines ih =>
    rw [Nat.mul_succ, Nat.count_add, ih]
    simp only [Nat.mul_add_mod]
    rw [Nat.count_eq_card_filter_range, hline, Finset.card_range, Nat.mul_succ]

/-- The hook's window has 240 × 256 positions of a frame. -/
theorem card_visible_positions : ((Finset.range 89342).filter fun n => n < 81840 ∧ n % 341 < 256).card = 61440 := by
  have hlines : (Finset.range 89342).filter (fun n => n < 81840 ∧ n % 341 < 256) =
      (Finset.range (341 * 240)).filter fun n => n % 341 < 256 := by
    ext n
    simp only [Finset.mem_filter, Finset.mem_range]
    omega
  rw [hlines, ← Nat.count_eq_card_filter_range]
  exact count_visible_dots 240

/-- The position determines line and dot. -/
theorem State.InFrame.eq_of_position_eq {s t : State} (hs : s.InFrame) (ht : t.InFrame) (h : t.position = s.position) :
    t.scanline = s.scanline ∧ t.dot = s.dot := by
  have hsdot := hs.dot_le
  have htdot := ht.dot_le
  simp only [State.position] at h
  constructor <;> bv_omega

theorem State.afterSteps_ctrl1 (s : State) (k : Nat) : (s.afterSteps k).ctrl1 = s.ctrl1 := by
  rw [s.afterSteps_frame k]

/-- A multiple of the positions of a frame returns to the position (R183). -/
theorem State.InFrame.afterSteps_returns {s : State} (h : s.InFrame) {k : Nat} (hk : k % 89342 = 0) :
    (s.afterSteps k).scanline = s.scanline ∧ (s.afterSteps k).dot = s.dot := by
  refine h.eq_of_position_eq (h.afterSteps k) ?_
  rw [h.afterSteps_position, Nat.add_mod, hk, Nat.add_zero, Nat.mod_mod, Nat.mod_eq_of_lt h.position_lt]

/-- The run of whole frames, for a number of STEPs that is not written out: what it leads to, and its records. -/
theorem State.InFrame.run_returns {s : State} (h : s.InFrame) (hready : s.life = .ready) {k : Nat} (hk : k % 89342 = 0)
    {rest : List Word} (hin : s.input = stepWords k rest) :
    ∃ t : State, runsTo k s t ∧ t.scanline = s.scanline ∧ t.dot = s.dot ∧ t.trace = s.stepRecords k ++ s.trace := by
  obtain ⟨hline, hdot⟩ := h.afterSteps_returns hk
  exact ⟨_, runsTo_afterSteps hready k hin, hline, hdot, s.afterSteps_trace k⟩

/-- Settles O49: a frame starts one STEP from each position, so each kind of event is counted by the positions that emit
it. -/
theorem frameOfStepsReturnsWithItsEvents : Obligations.FrameOfStepsReturnsWithItsEvents := by
  intro s rest hready hline hdot hin
  have hframe : s.InFrame := ⟨hline, hdot⟩
  obtain ⟨t, hrun, hline', hdot', htrace⟩ := hframe.run_returns hready rfl hin
  refine ⟨t, s.stepRecords 89342, hrun, hline', hdot', htrace, s.stepRecords_length 89342, ?_, ?_, ?_⟩
  · refine (hframe.countP_frame (P := (· = 89341)) fun k => (hframe.afterSteps k).step_frameDone).trans ?_
    simp [Finset.filter_eq']
  · exact (hframe.countP_frame (P := fun n => n < 81840 ∧ n % 341 < 256) fun k =>
      (hframe.afterSteps k).step_renderHooks).trans card_visible_positions
  · refine (hframe.countP_frame (P := fun n => n = 82180 ∧ vblankNmiEnabled s.ctrl1 = true) fun k =>
      s.afterSteps_ctrl1 k ▸ (hframe.afterSteps k).step_nmiRequest).trans ?_
    change _ = if vblankNmiEnabled s.ctrl1 = true then 1 else 0
    split <;> simp [Finset.filter_eq', *]

end Sys2Proof.Machine
end

