-- ==== Sys2Proof/Proofs/InitDebugFamily.lean ====
section
/-! PROOFS. The statements about initialisation and the diagnostic read path (`44_init_debug.md`): what INIT answers in each
case, and what each operation requires of `life`. INIT goes by one equation for its success and one for its failure, every
other operation by its effect behind the gate of R195. -/

namespace Sys2Proof.Machine

/-! ### The words (R93, R96) -/

/-- The word of INIT(m) as a number. -/
theorem encode_init_toNat (m : MirrorType) : (encode (.init m)).toNat = 0x3000 + m.code.toNat := by
  rw [encode, packWord_toNat]
  rfl

/-- The word of DEBUG_READ(p) as a number. -/
theorem encode_debugRead_toNat (p : Port) : (encode (.debugRead p)).toNat = 0x4000 + p.val * 256 := by
  rw [encode, packWord_toNat]
  rfl

/-! ### What INIT answers from `uninit` (R190) -/

section
variable {m : MirrorType} {s : State}

/-- A mode with a map and an acquired framebuffer: every register is reset and the map wired. -/
theorem exec_init_of_map {map : MirrorMap} (hlife : s.life = .uninit) (hok : s.allocOk = true)
    (hmap : mirrorMapOf m = some map) :
    exec (.init m) s = .next ((s.initialised map).emit (.init m) (.status 0) []) := by
  change execInit m s = _
  simp only [execInit, whenUninit_uninit hlife, hmap, hok, if_true, complete]

/-- A mode without a map, or no framebuffer: the failure of R192, by either cause. -/
theorem exec_init_of_failure (hlife : s.life = .uninit) (hfail : mirrorMapOf m = none ∨ s.allocOk = false) :
    exec (.init m) s = initFails m s := by
  change execInit m s = _
  rw [execInit, whenUninit_uninit hlife]
  cases hmap : mirrorMapOf m with
  | none => rfl
  | some map =>
    have hno : s.allocOk = false := hfail.resolve_left (by simp [hmap])
    simp only [hno, Bool.false_eq_true, if_false]

/-- A failed INIT leaves the instance failed and the host's words waiting, and records INIT_FAIL_CODE (R192). -/
theorem exec_init_failed (hlife : s.life = .uninit)
    (hfail : m ≠ .horizontal ∧ m ≠ .vertical ∨ s.allocOk = false) :
    ∃ t : State, exec (.init m) s = .next t ∧ t.life = .failed ∧
      t.trace = ⟨.init m, .status Config.initFailCode, []⟩ :: s.trace ∧ t.input = s.input :=
  ⟨_, exec_init_of_failure hlife (hfail.imp_left mirrorMapOf_eq_none.2), rfl, rfl, rfl⟩

/-- INIT completes from `uninit`, with either outcome (R195). -/
theorem exists_exec_init_next (m : MirrorType) (hlife : s.life = .uninit) : ∃ t : State, exec (.init m) s = .next t := by
  cases hmap : mirrorMapOf m with
  | none => exact ⟨_, exec_init_of_failure hlife (.inl hmap)⟩
  | some map =>
    cases hok : s.allocOk with
    | true => exact ⟨_, exec_init_of_map hlife hok hmap⟩
    | false => exact ⟨_, exec_init_of_failure hlife (.inr hok)⟩

end

/-! ### A failed instance (R192) -/

/-- INIT_FAIL_CODE is nonzero, whatever its open value. -/
theorem initFailCode_ne_zero : Config.initFailCode ≠ 0 := by
  unfold Config.initFailCode
  split
  · decide
  · assumption

/-- A failed instance refuses every operation, each by the name of its own gate (R193, R195). -/
theorem exec_refused_of_failed {s : State} (h : s.life = .failed) (i : Instr) :
    exec i s = .refused (if isInit i then .reInit else .notUsable) := by
  cases hi : isInit i with
  | true => exact exec_refused_of_not_uninit hi (by simp [h])
  | false => exact exec_refused_of_not_ready hi (by simp [h])

/-! ### The obligations -/

/-- Settles O2: the success by the initialised state, with the map of either mode, and the failure by `exec_init_failed`. -/
theorem initByModeAndAllocation : Obligations.InitByModeAndAllocation := by
  refine ⟨encode_init_toNat, fun m s => exec_refused_of_not_uninit rfl, ?_, fun m s => exec_init_failed⟩
  intro m map s hlife hok hmode
  have hmap : mirrorMapOf m = some map := by
    rcases hmode with ⟨rfl, rfl⟩ | ⟨rfl, rfl⟩ <;> rfl
  exact ⟨_, exec_init_of_map hlife hok hmap, rfl, rfl, rfl, rfl, rfl, rfl, rfl, rfl, rfl, rfl, rfl,
    s.initialised_readLoc map, rfl, rfl⟩

/-- Settles O3: the failed INIT leaves `life` failed, where both gates refuse. -/
theorem failedInitLeavesInstanceUnusable : Obligations.FailedInitLeavesInstanceUnusable := by
  refine ⟨initFailCode_ne_zero, fun m s hlife hfail => ?_⟩
  obtain ⟨t, hexec, hfailed, htrace, -⟩ := exec_init_failed hlife hfail
  exact ⟨t, hexec, hfailed, htrace, exec_refused_of_failed hfailed⟩

/-- Settles O5: past its gate every operation completes, INIT by either outcome and the others by their effect. -/
theorem lifecycleGateByOperation : Obligations.LifecycleGateByOperation := by
  refine fun i s => ⟨fun hi => ⟨fun hlife => ?_, exec_refused_of_not_uninit hi⟩, fun hi =>
    ⟨fun hready => ⟨_, exec_of_ready hi hready⟩, exec_refused_of_not_ready hi⟩⟩
  cases i with
  | init m => exact exists_exec_init_next m hlife
  | _ => cases hi

/-- Settles O12: the effect of DEBUG_READ is its sentinel alone. -/
theorem debugReadReturnsSentinel : Obligations.DebugReadReturnsSentinel := fun p =>
  ⟨encode_debugRead_toNat p, fun _ => exec_gated_of_effect rfl rfl⟩

end Sys2Proof.Machine
end

