-- ==== Sys2Proof/Proofs/ExceptionsFamily.lean ====
section
/-! PROOFS. The statements about the output events (`60_exceptions.md`): which operation emits which, and in what order. Every
completed operation records the events of its effect (`exec_next_trace`); those are the events of STEP, or the one diagnostic
that the table `diagnosticOf` gives the operation. -/

namespace Sys2Proof.Machine

/-! ### The events of an effect -/

/-- The diagnostic of an operation, if it has one (R201). -/
def diagnosticOf : Instr → Option (DiagKind × Port)
  | .read0 => some (.readInvalidPort, 0)
  | .read1 => some (.readInvalidPort, 1)
  | .read3 => some (.readInvalidPort, 3)
  | .read4 => some (.readInvalidPort, 4)
  | .read5 => some (.readInvalidPort, 5)
  | .read6 => some (.readInvalidPort, 6)
  | .read7 => some (.readDataUnimplemented, 7)
  | .write2 _ => some (.writeUnimplemented, 2)
  | .write3 _ => some (.writeUnimplemented, 3)
  | .write4 _ => some (.writeUnimplemented, 4)
  | _ => none

/-- The events of every operation but STEP: its diagnostic, if it has one. -/
theorem effectOf_events_of_ne_step {i : Instr} (hi : i ≠ .step) (s : State) :
    (effectOf s i).2.2 = (diagnosticOf i).toList.map fun d => .diag d.1 d.2 := by
  cases i with
  | step => exact absurd rfl hi
  | _ => rfl

/-- An operation with a diagnostic emits it alone, changes no state and has its default result (R201). -/
theorem effectOf_of_diagnosticOf {i : Instr} {k : DiagKind} {p : Port} (h : diagnosticOf i = some (k, p)) (s : State) :
    effectOf s i = (s, if k = .writeUnimplemented then .nothing else .byte 0x00#8, [.diag k p]) := by
  cases i with
  | read0 | read1 | read3 | read4 | read5 | read6 | read7 | write2 | write3 | write4 => cases h; rfl
  | _ => cases h

/-- The operations of each diagnostic, by port. -/
theorem diagnosticOf_eq_some_iff {i : Instr} {k : DiagKind} {p : Port} :
    diagnosticOf i = some (k, p) ↔
      (k = .readInvalidPort ∧ p ∈ ([0, 1, 3, 4, 5, 6] : List Port) ∧ i = readOf p) ∨
      (k = .readDataUnimplemented ∧ p = 7 ∧ i = .read7) ∨
      (k = .writeUnimplemented ∧ p ∈ ([2, 3, 4] : List Port) ∧ ∃ v : Byte, i = writeOf p v) := by
  constructor
  · intro h
    cases i with
    | read0 | read1 | read3 | read4 | read5 | read6 => cases h; exact .inl ⟨rfl, by decide, rfl⟩
    | read7 => cases h; exact .inr (.inl ⟨rfl, rfl, rfl⟩)
    | write2 v | write3 v | write4 v => cases h; exact .inr (.inr ⟨rfl, by decide, v, rfl⟩)
    | _ => cases h
  · rintro (⟨rfl, hp, rfl⟩ | ⟨rfl, rfl, rfl⟩ | ⟨rfl, hp, v, rfl⟩)
    · revert p
      decide
    · rfl
    · simp only [List.mem_cons, List.not_mem_nil, or_false] at hp
      rcases hp with rfl | rfl | rfl <;> rfl

/-- The hook's call is of the position before the increment, or not made (R171). -/
theorem hookEvents_cases (s : State) : hookEvents s = [] ∨ hookEvents s = [.renderHook s.scanline s.dot] := by
  unfold hookEvents
  split
  · exact .inr rfl
  · exact .inl rfl

/-- A STEP emits at most one signal after its hook (R178). -/
theorem advanceDot_events_cases (s : State) :
    (advanceDot s).2 = [] ∨ (advanceDot s).2 = [.nmiRequest] ∨ (advanceDot s).2 = [.frameDone] := by
  rw [advanceDot_events]
  split_ifs <;> simp

/-- Among the signals of a STEP the request is there exactly on entering line 241 with the interrupt enabled (R175). -/
theorem nmiRequest_mem_advanceDot_events (s : State) :
    Event.nmiRequest ∈ (advanceDot s).2 ↔ s.scanline = 240 ∧ s.dot = 340 ∧ s.ctrl1.getLsbD 7 = true := by
  rw [advanceDot_events]
  by_cases h : s.dot = 340 ∧ s.scanline = 240
  · simp [h, vblankNmiEnabled]
  · rw [if_neg h]
    have hno : Event.nmiRequest ∉ (if s.dot = 340 ∧ s.scanline = 261 then [Event.frameDone] else []) := by
      split_ifs <;> simp
    exact iff_of_false hno fun ⟨hline, hdot, _⟩ => h ⟨hdot, hline⟩

theorem nmiRequest_mem_effectOf_events (s : State) (i : Instr) :
    Event.nmiRequest ∈ (effectOf s i).2.2 ↔
      i = .step ∧ s.scanline = 240 ∧ s.dot = 340 ∧ s.ctrl1.getLsbD 7 = true := by
  by_cases hi : i = .step
  · subst hi
    have hhook : Event.nmiRequest ∉ hookEvents s := by
      rcases hookEvents_cases s with h | h <;> simp [h]
    simp only [effectOf, List.mem_append, hhook, false_or, true_and, nmiRequest_mem_advanceDot_events]
  · simp [effectOf_events_of_ne_step hi, hi]

theorem diag_mem_effectOf_events (s : State) (i : Instr) (k : DiagKind) (p : Port) :
    Event.diag k p ∈ (effectOf s i).2.2 ↔ diagnosticOf i = some (k, p) := by
  by_cases hi : i = .step
  · subst hi
    have hhook : Event.diag k p ∉ hookEvents s := by
      rcases hookEvents_cases s with h | h <;> simp [h]
    have hsignal : Event.diag k p ∉ (advanceDot s).2 := by
      rcases advanceDot_events_cases s with h | h | h <;> simp [h]
    simp [effectOf, diagnosticOf, hhook, hsignal]
  · simp [effectOf_events_of_ne_step hi]

/-! ### The events a completed operation records -/

/-- A completed operation adds one record, with the events of its effect: none for INIT, whose effect has none. -/
theorem exec_next_trace {i : Instr} {s t : State} (h : exec i s = .next t) :
    ∃ r : Result, t.trace = ⟨i, r, (effectOf s i).2.2⟩ :: s.trace := by
  cases hi : isInit i with
  | false =>
    obtain ⟨-, rfl⟩ := exec_next hi h
    exact ⟨_, by rw [State.emit_trace, effectOf_trace]⟩
  | true =>
    cases i with
    | init m =>
      obtain ⟨-, ⟨map, -, -, rfl⟩ | ⟨-, rfl⟩⟩ := execInit_next h
      · exact ⟨.status 0, rfl⟩
      · exact ⟨.status Config.initFailCode, rfl⟩
    | _ => cases hi

theorem events_eq_of_exec_next {i : Instr} {s t : State} {r : Result} {events : List Event} (h : exec i s = .next t)
    (htrace : t.trace = ⟨i, r, events⟩ :: s.trace) : events = (effectOf s i).2.2 := by
  obtain ⟨r', htrace'⟩ := exec_next_trace h
  rw [htrace'] at htrace
  exact (congrArg Record.events (List.cons.inj htrace).1).symm

/-- An operation with a diagnostic, completed, leaves the old state with its record added, and nothing else (R201). -/
theorem exec_next_of_diagnosticOf {i : Instr} {k : DiagKind} {p : Port} {s t : State} (hdiag : diagnosticOf i = some (k, p))
    (h : exec i s = .next t) :
    t = s.emit i (if k = .writeUnimplemented then .nothing else .byte 0x00#8) [.diag k p] := by
  have hi : isInit i = false := by
    cases i with
    | init m => cases hdiag
    | _ => rfl
  obtain ⟨-, rfl⟩ := exec_next hi h
  rw [effectOf_of_diagnosticOf hdiag]

/-! ### The obligations -/

/-- Settles O36: the events are those of the effect, where only STEP can have the request. -/
theorem nmiRequestedOnlyOnEnteringLine241 : Obligations.NmiRequestedOnlyOnEnteringLine241 := by
  intro i s t r events hexec htrace
  obtain rfl := events_eq_of_exec_next hexec htrace
  exact nmiRequest_mem_effectOf_events s i

/-- Settles O40: the events are those of the effect, and an operation with a diagnostic only records it. -/
theorem diagnosticsByOperation : Obligations.DiagnosticsByOperation := by
  refine ⟨⟨rfl, rfl, rfl⟩, fun i s t r events k p hexec htrace => ?_⟩
  have hmem : Event.diag k p ∈ events ↔ diagnosticOf i = some (k, p) :=
    events_eq_of_exec_next hexec htrace ▸ diag_mem_effectOf_events s i k p
  refine ⟨hmem.trans diagnosticOf_eq_some_iff, fun hdiag => ?_⟩
  obtain rfl := exec_next_of_diagnosticOf (hmem.1 hdiag) hexec
  obtain ⟨⟨-, rfl, -⟩, -⟩ := List.cons.inj htrace
  exact ⟨rfl, rfl⟩

/-- Settles O41: STEP has its hook and its signal, every other operation at most a diagnostic. -/
theorem eventOrderWithinAnOperation : Obligations.EventOrderWithinAnOperation := by
  intro i s t hexec
  obtain ⟨r, htrace⟩ := exec_next_trace hexec
  by_cases hi : i = .step
  · subst hi
    have hsignal := advanceDot_events_cases s
    refine ⟨r, hookEvents s, (advanceDot s).2, htrace, hookEvents_cases s, ?_, fun _ k p => ?_, fun hne => absurd rfl hne⟩
    · exact hsignal.imp_right (.imp_right .inl)
    · rcases hsignal with h | h | h <;> simp [h]
  · rw [effectOf_events_of_ne_step hi] at htrace
    refine ⟨r, [], _, htrace, .inl rfl, ?_, fun h => absurd h hi, fun _ => ⟨rfl, by simp, by simp⟩⟩
    cases diagnosticOf i with
    | none => exact .inl rfl
    | some d => exact .inr (.inr (.inr ⟨d.1, d.2, rfl⟩))

end Sys2Proof.Machine
end

