-- ==== Sys2Proof/Proofs/ResetHazardsFamily.lean ====
section
/-! PROOFS. The statements about reset and hazards (`70_reset_and_hazards.md`): how a created instance boots, the host's
duties, two status reads in a row, and which operation advances the position. They go by the gates, the effects and the rules
of the step that the families before have proved. -/

namespace Sys2Proof.Machine

/-! ### The position (R245) -/

/-- Only STEP and INIT write the position (R245). -/
theorem effectOf_position {i : Instr} (hi : i ≠ .step) (s : State) :
    (effectOf s i).1.scanline = s.scanline ∧ (effectOf s i).1.dot = s.dot := by
  cases i with
  | step => exact absurd rfl hi
  | read2 => rw [effectOf_read2]; exact ⟨rfl, rfl⟩
  | write7 v => exact ⟨s.mapWrite_scanline s.vaddr v, s.mapWrite_dot s.vaddr v⟩
  | _ => exact ⟨rfl, rfl⟩

/-- A successful INIT leaves the position at (0, 0) (R44). -/
theorem exec_init_position {m : MirrorType} {s t : State} (h : exec (.init m) s = .next t) (hready : t.life = .ready) :
    t.scanline = 0 ∧ t.dot = 0 := by
  obtain ⟨-, ⟨map, -, -, rfl⟩ | ⟨-, rfl⟩⟩ := execInit_next h
  · exact ⟨rfl, rfl⟩
  · cases hready

/-- Settles O39: INIT by the initialised state, STEP by the number of its position, the rest by their effect. -/
theorem positionAdvancesOnlyByStep : Obligations.PositionAdvancesOnlyByStep := by
  refine fun i s t hexec => ⟨fun hi hstep => ?_, fun hi hready => ?_, fun hi hline hdot => ?_⟩
  · obtain ⟨-, rfl⟩ := exec_next hi hexec
    exact effectOf_position hstep s
  · cases i with
    | init m => exact exec_init_position hexec hready
    | _ => cases hi
  · subst hi
    obtain ⟨-, rfl⟩ := exec_next rfl hexec
    obtain ⟨⟨hline', hdot'⟩, hnext⟩ := State.InFrame.advanceDot ⟨hline, hdot⟩
    exact ⟨hline', hdot', hnext⟩

/-! ### The host's duties (R235) -/

/-- The life an operation requires (R20, R195). -/
theorem admitted_eq (life : Life) (i : Instr) :
    admitted life i = decide (life = if isInit i then .uninit else .ready) := by
  cases i <;> rfl

/-- An admitted operation completes. -/
theorem exists_exec_next_of_admitted {i : Instr} {s : State} (h : admitted s.life i = true) :
    ∃ t : State, exec i s = .next t := by
  obtain ⟨hinit, hother⟩ := lifecycleGateByOperation i s
  rw [admitted_eq, decide_eq_true_iff] at h
  cases hi : isInit i with
  | true => exact (hinit hi).1 (by simpa [hi] using h)
  | false => exact (hother hi).1 (by simpa [hi] using h)

/-- An operation that is not admitted is refused by the name of its gate. -/
theorem exec_refused_of_not_admitted {i : Instr} {s : State} (h : admitted s.life i = false) :
    exec i s = .refused (if isInit i then .reInit else .notUsable) := by
  rw [admitted_eq, decide_eq_false_iff_not] at h
  cases hi : isInit i with
  | true => exact exec_refused_of_not_uninit hi (by simpa [hi] using h)
  | false => exact exec_refused_of_not_ready hi (by simpa [hi] using h)

/-- With no word waiting, the host has no duty. -/
theorem State.dutiesKept_of_idle {s : State} (hin : s.input = []) : s.dutiesKept = true := by
  simp only [State.dutiesKept, hin]

/-- With a valid word waiting first, the duty is that `life` admits its operation. -/
theorem State.dutiesKept_of_decode {s : State} {w : Word} {rest : List Word} {i : Instr} (hin : s.input = w :: rest)
    (hw : decode w = .ok i) : s.dutiesKept = admitted s.life i := by
  simp only [State.dutiesKept, hin, hw]

/-- With an Invalid word waiting first, the host has not kept its duties. -/
theorem State.dutiesKept_of_invalid {s : State} {w : Word} {rest : List Word} {e : Invalid} (hin : s.input = w :: rest)
    (hw : decode w = .error e) : s.dutiesKept = false := by
  simp only [State.dutiesKept, hin, hw]

/-- Settles O45: an idle block, an Invalid word, or a valid one, which its gate admits or refuses. -/
theorem stepCompletesIffDutiesKept : Obligations.StepCompletesIffDutiesKept := by
  intro s
  cases hin : s.input with
  | nil =>
    rw [State.dutiesKept_of_idle hin]
    exact ⟨fun _ => ⟨s, step_idle hin⟩, nofun⟩
  | cons w rest =>
    cases hw : decode w with
    | error e =>
      rw [State.dutiesKept_of_invalid hin hw]
      exact ⟨nofun, fun _ => .inr (.inr (step_of_invalid hin hw))⟩
    | ok i =>
      rw [State.dutiesKept_of_decode hin hw, step_of_decode hin hw]
      refine ⟨fun h => exists_exec_next_of_admitted h, fun h => ?_⟩
      rw [exec_refused_of_not_admitted (s := { s with input := rest }) h]
      cases isInit i with
      | true => exact .inr (.inl rfl)
      | false => exact .inl rfl

/-! ### Booting a created instance (R234) -/

/-- A mode that has a mirror map is a named one, and so well formed (R96, R190). -/
theorem wellFormed_of_mirrorMapOf {m : MirrorType} {map : MirrorMap} (h : mirrorMapOf m = some map) :
    m.wellFormed = true := by
  rcases mirrorMapOf_eq_some h with ⟨rfl, -⟩ | ⟨rfl, -⟩ <;> rfl

/-- Settles O4: a created instance is uninit, where INIT initialises every register and every other operation is refused. -/
theorem createdInstanceBootsByInit : Obligations.CreatedInstanceBootsByInit := by
  refine fun rest => ⟨fun m map hmap => ?_, fun w i ok hw hi => ?_⟩
  · have hdecode : decode (encode (.init m)) = .ok (.init m) := decode_encode (wellFormed_of_mirrorMapOf hmap)
    have hboot := (step_of_decode (s := State.created (encode (.init m) :: rest) true) rfl hdecode).trans
      (exec_init_of_map rfl rfl hmap)
    exact ⟨_, runsTo_succ hboot (runsTo_zero _), rfl⟩
  · rw [step_of_decode rfl hw]
    exact exec_refused_of_not_ready hi nofun

/-! ### Status reads in a row (R239) -/

/-- The state a status read leaves: VBL clear, and the old `status` recorded (R133). -/
theorem performed_read2 (s : State) :
    s.performed .read2 =
      { s with status := s.status &&& 0x7F#8, trace := ⟨.read2, .byte s.status, []⟩ :: s.trace } := by
  rw [State.performed, effectOf_read2, clearVbl_eq]
  rfl

/-- Settles O11: the second read finds VBL clear and clears it again, which is no change. -/
theorem secondStatusReadSeesVblClear : Obligations.SecondStatusReadSeesVblClear := by
  intro s rest hready hin
  refine ⟨_, runsTo_pair (i := .read2) (j := .read2) hready hin rfl rfl rfl rfl, ?_⟩
  simp only [performed_read2, BitVec.and_assoc, BitVec.and_self]

end Sys2Proof.Machine
end
